-- ==== Sys2Proof/Word.lean ====
section
/-!
DEFINITION. The one word of the machine, the byte, and the two readings of it that the rules use (spec/00_scope.md R6).
-/

namespace Sys2Proof

/-- A byte: an unsigned 8-bit value, bit 7 the most significant (R6). -/
abbrev Byte := BitVec 8

/-- `u8(v)`: the integer `v` modulo 256, the remainder taken in 0..255 for negative `v` too (R6). -/
def u8 (v : Int) : Byte := BitVec.ofInt 8 v

/-- `s8(b)`: the two's-complement reading of a byte (R6). -/
def s8 (b : Byte) : Int := if b.toNat ≤ 127 then b.toNat else (b.toNat : Int) - 256

end Sys2Proof
end

