-- ==== Sys2Proof/Config.lean ====
section
/-!
DEFINITION. The parameters of the hardware (spec/00_scope.md R5) as plain data: the opcode bytes, the memory size, the optional
rows ADD and SUB, and the order Compare uses. Their default values stand in Sys2Proof/Decode.lean.
-/

namespace Sys2Proof

/-- The rows of the dispatcher table, the eight of R62 and the two of R73. -/
inductive Row where
  | hlt | ldi | prn | mul | cmp | jmp | jeq | jne | add | sub
  deriving DecidableEq, Repr

/-- The parameter `OPC`: the opcode byte of each row (R5, R62, R73). -/
structure Opc where
  hlt : Byte
  ldi : Byte
  prn : Byte
  mul : Byte
  cmp : Byte
  jmp : Byte
  jeq : Byte
  jne : Byte
  add : Byte
  sub : Byte
  deriving DecidableEq, Repr

/-- The parameter `CMP_ORDER` (R5, R121). -/
inductive CmpOrder where
  | unsigned
  | twosComplement
  deriving DecidableEq, Repr

/-- The configuration of one machine: the parameters that are fixed before a run (R5, R10). -/
structure Config where
  /-- `OPC` -/
  opc : Opc
  /-- `MEM_SIZE` -/
  memSize : Nat
  /-- `EXT_ADDSUB` -/
  extAddSub : Bool
  /-- `CMP_ORDER` -/
  cmpOrder : CmpOrder
  deriving DecidableEq, Repr

/-- `PC_MAX`, the largest value the pc ever holds (R5, R18). -/
def Config.pcMax (cfg : Config) : Nat := max cfg.memSize 255

end Sys2Proof
end

