-- ==== Sys2Proof/Syntax.lean ====
section
/-!
DEFINITION. The instructions, one constructor per row of spec/opcode_table.json. A register operand is the whole operand byte
(spec/30_encoding.md R66): the values 8..255 are instructions too, which raise InvalidRegister when they run (R84).
-/

namespace Sys2Proof

/-- An instruction with its operand bytes, in the order of the table's "Operands" column (R61, R62, R73). -/
inductive Instr where
  /-- Halt (R100) -/
  | hlt
  /-- LoadImmediate (R101) -/
  | ldi (reg value : Byte)
  /-- PrintRegister (R102) -/
  | prn (reg : Byte)
  /-- Multiply (R116) -/
  | mul (regA regB : Byte)
  /-- Compare (R117) -/
  | cmp (regA regB : Byte)
  /-- Jump (R130) -/
  | jmp (reg : Byte)
  /-- JumpIfEqual (R131) -/
  | jeq (reg : Byte)
  /-- JumpIfNotEqual (R132) -/
  | jne (reg : Byte)
  /-- Add, in force only under EXT_ADDSUB (R118) -/
  | add (regA regB : Byte)
  /-- Subtract, in force only under EXT_ADDSUB (R119) -/
  | sub (regA regB : Byte)
  deriving DecidableEq, Repr

end Sys2Proof
end

