-- ==== Sys2Proof/WellFormed.lean ====
section
/-!
DEFINITION. Which instructions the encoding admits and which of those run without an operand error: the row is in force
(spec/30_encoding.md R62, R73) and every register operand names a register (R66).
-/

namespace Sys2Proof

/-- The row of the dispatcher table an instruction belongs to. -/
def Instr.row : Instr → Row
  | .hlt => .hlt
  | .ldi _ _ => .ldi
  | .prn _ => .prn
  | .mul _ _ => .mul
  | .cmp _ _ => .cmp
  | .jmp _ => .jmp
  | .jeq _ => .jeq
  | .jne _ => .jne
  | .add _ _ => .add
  | .sub _ _ => .sub

/-- The operand bytes used as register indices, in operand order; LDI's `value` is none of them (R66, R84). -/
def Instr.regOperands : Instr → List Byte
  | .hlt => []
  | .ldi reg _ => [reg]
  | .prn reg => [reg]
  | .mul regA regB => [regA, regB]
  | .cmp regA regB => [regA, regB]
  | .jmp reg => [reg]
  | .jeq reg => [reg]
  | .jne reg => [reg]
  | .add regA regB => [regA, regB]
  | .sub regA regB => [regA, regB]

/-- A row is in force: all but ADD and SUB always, those two only when `EXT_ADDSUB` is true (R62, R73). -/
def Row.inForce (cfg : Config) : Row → Bool
  | .hlt | .ldi | .prn | .mul | .cmp | .jmp | .jeq | .jne => true
  | .add | .sub => cfg.extAddSub

/-- Every register operand is in 0..7 (R66). -/
def Instr.regsInRange (i : Instr) : Bool := i.regOperands.all fun r => r.toNat ≤ 7

/-- The first register operand, in operand order, that names no register (R84). -/
def Instr.firstBadReg (i : Instr) : Option Byte := i.regOperands.find? fun r => 8 ≤ r.toNat

/-- An instruction of the set in force whose register operands all name registers. -/
def Instr.wellFormed (cfg : Config) (i : Instr) : Bool := i.row.inForce cfg && i.regsInRange

end Sys2Proof
end

