-- ==== Sys2Proof/Decode.lean ====
section
/-!
DEFINITION. The default parameters, the dispatcher table, the decoder (total on any bytes, rejecting by name) and the encoder
(spec/30_encoding.md R60 to R76).
-/

namespace Sys2Proof

/-- The default opcode numerals (R62, R73). PRESUMED by the spec itself: the source prints no numeral, these are the LS-8 ones
(log entry 1, unsafe). -/
def Opc.default : Opc where
  hlt := 0x01
  ldi := 0x82
  prn := 0x47
  mul := 0xA2
  cmp := 0xA7
  jmp := 0x54
  jeq := 0x55
  jne := 0x56
  add := 0xA0
  sub := 0xA1

/-- The spec's settings of the parameters (R5): the default numerals, 256 cells, no ADD and SUB rows, unsigned Compare
(log entries 1, 4, 5, 6). -/
def Config.default : Config where
  opc := Opc.default
  memSize := 256
  extAddSub := false
  cmpOrder := .unsigned

/-- The default parameters with all ten rows of spec/opcode_table.json in force (R73, R76; log entry 5). -/
def Config.allRows : Config := { Config.default with extAddSub := true }

/-- The opcode byte of a row (R62, R73). -/
def Config.opcode (cfg : Config) : Row → Byte
  | .hlt => cfg.opc.hlt
  | .ldi => cfg.opc.ldi
  | .prn => cfg.opc.prn
  | .mul => cfg.opc.mul
  | .cmp => cfg.opc.cmp
  | .jmp => cfg.opc.jmp
  | .jeq => cfg.opc.jeq
  | .jne => cfg.opc.jne
  | .add => cfg.opc.add
  | .sub => cfg.opc.sub

/-- The number of operand bytes of a row (R61, R62, R73). -/
def Row.operandCount : Row → Nat
  | .hlt => 0
  | .prn | .jmp | .jeq | .jne => 1
  | .ldi | .mul | .cmp | .add | .sub => 2

/-- The width of an instruction of a row in bytes: the opcode and its operands (R68). -/
def Row.width (r : Row) : Nat := 1 + r.operandCount

/-- All rows, in the order of the spec's tables (R62, R73). -/
def Row.all : List Row := [.hlt, .ldi, .prn, .mul, .cmp, .jmp, .jeq, .jne, .add, .sub]

/-- The dispatcher table in force (R62, R73). -/
def Config.rows (cfg : Config) : List Row := Row.all.filter (Row.inForce cfg)

/-- The constraint on `OPC`: the opcode bytes of the rows in force are pairwise distinct (R63). -/
abbrev Config.opcodesDistinct (cfg : Config) : Prop := (cfg.rows.map cfg.opcode).Nodup

/-- The parameter values R5 calls legal: distinct opcodes and at least one memory cell. -/
abbrev Config.wf (cfg : Config) : Prop := cfg.opcodesDistinct ∧ 1 ≤ cfg.memSize

/-- `Decode(b)`: the row in force whose opcode byte is `b`, or none (R64). -/
def decodeOpcode (cfg : Config) (b : Byte) : Option Row := cfg.rows.find? fun r => cfg.opcode r = b

/-- If `b` is an opcode only with the rows ADD and SUB in force, put them in force (R73, log entry 5). -/
def Config.withRowOf (cfg : Config) (b : Byte) : Config :=
  match decodeOpcode cfg b, decodeOpcode { cfg with extAddSub := true } b with
  | none, some _ => { cfg with extAddSub := true }
  | _, _ => cfg

/-- The instruction of a row, given its fetched operand bytes in order; a row with fewer operands uses only those (R61). -/
def Row.instr (operands : List Byte) : Row → Instr
  | .hlt => .hlt
  | .ldi => .ldi (operands.getD 0 0) (operands.getD 1 0)
  | .prn => .prn (operands.getD 0 0)
  | .mul => .mul (operands.getD 0 0) (operands.getD 1 0)
  | .cmp => .cmp (operands.getD 0 0) (operands.getD 1 0)
  | .jmp => .jmp (operands.getD 0 0)
  | .jeq => .jeq (operands.getD 0 0)
  | .jne => .jne (operands.getD 0 0)
  | .add => .add (operands.getD 0 0) (operands.getD 1 0)
  | .sub => .sub (operands.getD 0 0) (operands.getD 1 0)

/-- Why bytes are no instruction. -/
inductive DecodeError where
  /-- there is no opcode byte -/
  | noOpcode
  /-- the opcode byte is that of no row in force (R65) -/
  | unknownOpcode (byte : Byte)
  /-- the row has more operand bytes than stand there; `present` of them do (R83) -/
  | missingOperand (row : Row) (present : Nat)
  deriving DecidableEq, Repr

/-- The decoder, over the bytes from the opcode on: the instruction and the bytes after it, or the named reason why not
(R60, R64, R65, R68). -/
def decode (cfg : Config) : List Byte → Except DecodeError (Instr × List Byte)
  | [] => .error .noOpcode
  | op :: rest =>
    match decodeOpcode cfg op with
    | none => .error (.unknownOpcode op)
    | some row =>
      if rest.length < row.operandCount then .error (.missingOperand row rest.length)
      else .ok (row.instr (rest.take row.operandCount), rest.drop row.operandCount)

/-- The operand bytes of an instruction, in the order they are emitted (R75). -/
def Instr.operandBytes : Instr → List Byte
  | .hlt => []
  | .ldi reg value => [reg, value]
  | .prn reg => [reg]
  | .mul regA regB => [regA, regB]
  | .cmp regA regB => [regA, regB]
  | .jmp reg => [reg]
  | .jeq reg => [reg]
  | .jne reg => [reg]
  | .add regA regB => [regA, regB]
  | .sub regA regB => [regA, regB]

/-- The encoder: the opcode byte of the row, then each operand as one byte (R75). -/
def encode (cfg : Config) (i : Instr) : List Byte := cfg.opcode i.row :: i.operandBytes

/-- The bytes of a table row's word: bit 0 is the least significant bit of the byte at the lowest address, later bytes count on,
the bits from `nbits` up are zero, and three bytes is the longest instruction (R44, R60). -/
def tableBytes (nbits w : Nat) : List Byte :=
  [BitVec.ofNat 8 (w % 2 ^ nbits), BitVec.ofNat 8 (w % 2 ^ nbits / 256), BitVec.ofNat 8 (w % 2 ^ nbits / 65536)]

/-- What the decoder reads from a word of spec/opcode_table.json, the table's ten rows all in force (log entry 5). -/
def decodeTableWord (nbits w : Nat) : Option Instr :=
  match decode Config.allRows (tableBytes nbits w) with
  | .ok (i, _) => some i
  | .error _ => none

end Sys2Proof
end

