-- ==== Sys2Proof/Machine/State.lean ====
section
/-!
DEFINITION. The complete state of the machine as plain data (spec/10_state.md R10), the reasons a step could stop, and the state
right after reset (R30 to R34, spec/70_reset_and_hazards.md R170).
-/

namespace Sys2Proof.Machine

/-- The register file: eight registers of one byte, `x[0]` to `x[7]` (R11). -/
abbrev Regs := Vector Byte 8

/-- The flag register: three independent booleans (R19). -/
structure Flags where
  /-- Less -/
  l : Bool
  /-- Greater -/
  g : Bool
  /-- Equal -/
  e : Bool
  deriving DecidableEq, Repr

/-- The run state of the execution loop (R23). -/
inductive RunState where
  | running
  | halted
  deriving DecidableEq, Repr

/-- The exit signal (R24, R145). -/
inductive ExitSignal where
  | ok
  | unknownInstruction
  | unsupportedOperation
  | outOfRange
  | invalidRegister
  deriving DecidableEq, Repr

/-- The context a fatal error records, one constructor per error (R145). -/
inductive ErrInfo where
  /-- the byte fetched as an opcode and its address (R144) -/
  | unknownInstruction (byte : Byte) (addr : Nat)
  /-- the ALU's operation selector (R143) -/
  | unsupportedOperation (op : BitVec 4)
  /-- the address that is out of range (R141) -/
  | outOfRange (addr : Nat)
  /-- the index and the address of the instruction's opcode (R142) -/
  | invalidRegister (index : Byte) (addr : Nat)
  deriving DecidableEq, Repr

/-- Memory as a list of address and byte pairs, addresses rising, listing only the cells that do not hold `MEM_FILL`
(R40, R171; the form is `Memory.wf`). -/
abbrev Memory := List Host.Cell

/-- The complete state (R10), with the machine's parameters beside it (`cfg`: configuration, which nothing changes;
log entry 7). -/
structure State where
  /-- general registers -/
  x : Regs
  /-- program counter: an integer that never wraps (R16, R18) -/
  pc : Nat
  /-- flag register -/
  fl : Flags
  /-- run state -/
  run : RunState
  /-- exit signal -/
  exit : ExitSignal
  /-- context of the fatal error; none when there is none -/
  errinfo : Option ErrInfo
  /-- memory -/
  mem : Memory
  /-- output trace: the bytes PRN has emitted, oldest first (R27) -/
  out : List Byte
  /-- the parameters of this machine (R5) -/
  cfg : Config
  deriving DecidableEq, Repr

/-- The faults of the model: none. The spec describes the entry of each of its four fatal errors (R147), so each is a next
state with `run` Halted, and no step ends in a fault. -/
inductive Fault where
  deriving DecidableEq, Repr

/-- The refusals of the model. -/
inductive Refusal where
  /-- An instruction without a meaning yet: raised by a refused arm of `exec` only. No arm refuses, so no step raises it.
  Safe: the model would stop where the hardware goes on. -/
  | notModelled (mnemonic : String)
  deriving DecidableEq, Repr

/-- The state a reset leaves: what R30, R31, R32 and R34 fix, the register values of this reset (`REG_RESET`, open, R33), and
the memory and the parameters, which reset does not touch (R170). -/
def State.afterReset (cfg : Config) (mem : Memory) (regReset : Regs) : State where
  x := regReset
  pc := 0
  fl := { l := false, g := false, e := false }
  run := .running
  exit := .ok
  errinfo := none
  mem := mem
  out := []
  cfg := cfg

/-- The state after reset of the machine with the spec's settings, no memory listed, and every general register zero.
DESIGN CHOICE (log entry 2, unsafe): the spec leaves the register values open (R33). -/
def State.reset : State := State.afterReset Config.default [] (Vector.replicate 8 0)

end Sys2Proof.Machine
end

