-- ==== Sys2Proof/Machine/Flags.lean ====
section
/-!
DEFINITION. The flag computation of Compare, the only one the machine has (spec/42_alu.md R121, spec/10_state.md R21), the
predicates the jumps use (spec/43_jumps.md R135) and the packed view of the flags (R22).
-/

namespace Sys2Proof.Machine

/-- `key(v)`: the number Compare takes a byte for (R121). -/
def cmpKey : CmpOrder → Byte → Int
  | .unsigned, v => v.toNat
  | .twosComplement, v => s8 v

/-- `Cmp(va, vb)`: exactly one of Equal, Greater, Less (R121). -/
def cmpFlags (order : CmpOrder) (va vb : Byte) : Flags :=
  if cmpKey order va = cmpKey order vb then { l := false, g := false, e := true }
  else if cmpKey order va > cmpKey order vb then { l := false, g := true, e := false }
  else { l := true, g := false, e := false }

/-- The predicate of JEQ: Equal set (R131, R135). -/
def Flags.equalSet (fl : Flags) : Bool := fl.e

/-- The predicate of JNE: Equal clear (R132, R135). -/
def Flags.equalClear (fl : Flags) : Bool := !fl.e

/-- The flags shown as one byte, `00000LGE`: presentation only, nothing in the machine reads it (R22). -/
def Flags.packed (fl : Flags) : Byte :=
  BitVec.ofNat 8 ((if fl.l then 4 else 0) + (if fl.g then 2 else 0) + (if fl.e then 1 else 0))

/-- How many of the three flags are set. -/
def Flags.count (fl : Flags) : Nat := fl.l.toNat + fl.g.toNat + fl.e.toNat

end Sys2Proof.Machine
end

