-- ==== Sys2Proof/Machine/Ops.lean ====
section
/-!
DEFINITION. The named operations over registers, pc, flags, memory and the output channel (the primitives of spec/00_scope.md
R7), taking a fatal error (spec/60_exceptions.md R147, R148), the clean halt, and reset, the one way out of Halted (R149, R170).
-/

namespace Sys2Proof.Machine

/-! ### Registers, pc, flags, output -/

/-- `x[i]` (R14). -/
def State.reg (s : State) (i : Fin 8) : Byte := s.x[i]

/-- `x[i] <- v` in a register file: stores `v` modulo 256 (R14). -/
def Regs.put (x : Regs) (i : Fin 8) (v : Int) : Regs := x.set i (u8 v)

/-- `x[i] <- v` (R14). -/
def State.writeReg (s : State) (i : Fin 8) (v : Int) : State := { s with x := Regs.put s.x i v }

/-- `pc <- t` (R7). -/
def State.setPc (s : State) (t : Nat) : State := { s with pc := t }

/-- Sequential advance: the pc moves past the instruction of `row`, unreduced (R17, R18). -/
def State.advance (s : State) (row : Row) : State := s.setPc (s.pc + row.width)

/-- `FL <- fl`: all three flags at once (R7). -/
def State.setFlags (s : State) (fl : Flags) : State := { s with fl := fl }

/-- `Emit(v)`: append a byte to the output trace (R27, R102). -/
def State.emit (s : State) (v : Byte) : State := { s with out := s.out ++ [v] }

/-! ### Memory -/

/-- `MEM_FILL`: what a cell reads as that nothing has written (R5, R34, R171; log entry 3). -/
def memFill : Byte := 0x00

/-- The byte at an address: the listed one, else `MEM_FILL`. -/
def Memory.read : Memory → Nat → Byte
  | [], _ => memFill
  | (b, w) :: m, a => if a = b then w else Memory.read m a

/-- Store one byte, keeping the canonical form: addresses rising, no entry equal to `MEM_FILL`. -/
def Memory.write : Memory → Nat → Byte → Memory
  | [], a, v => if v = memFill then [] else [(a, v)]
  | (b, w) :: m, a, v =>
    if a < b then (if v = memFill then (b, w) :: m else (a, v) :: (b, w) :: m)
    else if a = b then (if v = memFill then m else (a, v) :: m)
    else (b, w) :: Memory.write m a v

/-- The canonical form: addresses strictly rising, no entry equal to what an unlisted address reads as. -/
abbrev Memory.wf (m : Memory) : Prop := m.Pairwise (fun c d => c.1 < d.1) ∧ ∀ c ∈ m, c.2 ≠ memFill

/-- `MemRead(addr, 1)` (R41). -/
def State.memRead (s : State) (addr : Nat) : Except ErrInfo Byte :=
  if addr < s.cfg.memSize then .ok (s.mem.read addr) else .error (.outOfRange addr)

/-- `MemWrite(addr, 1, v)` (R42). No instruction uses it (R46); the Loader does. -/
def State.memWrite (s : State) (addr : Nat) (v : Byte) : Except ErrInfo State :=
  if addr < s.cfg.memSize then .ok { s with mem := s.mem.write addr v } else .error (.outOfRange addr)

/-- `n` bytes from `addr` on, read in ascending order; the first address out of range is the error (R83). -/
def State.readBytes (s : State) (addr : Nat) : Nat → Except ErrInfo (List Byte)
  | 0 => .ok []
  | n + 1 =>
    match s.memRead addr with
    | .error e => .error e
    | .ok b =>
      match State.readBytes s (addr + 1) n with
      | .error e => .error e
      | .ok bs => .ok (b :: bs)

/-! ### The end of a run, and reset -/

/-- The exit signal of a fatal error (R145). -/
def ErrInfo.signal : ErrInfo → ExitSignal
  | .unknownInstruction _ _ => .unknownInstruction
  | .unsupportedOperation _ => .unsupportedOperation
  | .outOfRange _ => .outOfRange
  | .invalidRegister _ _ => .invalidRegister

/-- The numeral of an exit signal (R145). -/
def ExitSignal.code : ExitSignal → Nat
  | .ok => 0
  | .unknownInstruction => 1
  | .unsupportedOperation => 2
  | .outOfRange => 3
  | .invalidRegister => 4

/-- The pc after a fatal error in the step of the instruction at `a` (R148). -/
def ErrInfo.pcAfter (a : Nat) : ErrInfo → Nat
  | .unknownInstruction _ _ => a + 1
  | .unsupportedOperation _ => a
  | .outOfRange _ => a
  | .invalidRegister _ _ => a

/-- TAKING A FATAL ERROR: `raise`. The loop halts with the error's signal and context; the pc is as R148 says and nothing else
changes (R147, R148). There is no handler and no return (R149). -/
def State.raise (s : State) (e : ErrInfo) : State :=
  { s with pc := e.pcAfter s.pc, run := .halted, exit := e.signal, errinfo := some e }

/-- `halt_clean()` (R7, R100). -/
def State.haltClean (s : State) : State := { s with run := .halted, exit := .ok, errinfo := none }

/-- The reset event, in any state, Running or Halted: the one way out of Halted (R149, R170). `regReset` is what the eight
registers hold after this reset, which the spec leaves open (R33). -/
def State.applyReset (s : State) (regReset : Regs) : State := State.afterReset s.cfg s.mem regReset

end Sys2Proof.Machine
end

