-- ==== Sys2Proof/Machine/Operands.lean ====
section
/-!
DEFINITION. The operand form of the machine, a register operand, and its validation (spec/40_cycle.md R84, spec/10_state.md R15).
-/

namespace Sys2Proof.Machine

/-- What a step answers. -/
abbrev Result := Host.Outcome State Fault Refusal

/-- The register a register operand byte names: `x[r]` for `r` in 0..7, none above; never masked (R15, R66). -/
def regIndex (r : Byte) : Option (Fin 8) := if h : r.toNat < 8 then some ⟨r.toNat, h⟩ else none

/-- Validate one register operand before any effect, then go on with the register it names; otherwise InvalidRegister with the
operand's value and the instruction's address (R84, R142). -/
def withReg (s : State) (r : Byte) (run : Fin 8 → Result) : Result :=
  match regIndex r with
  | some i => run i
  | none => .next (s.raise (.invalidRegister r s.pc))

/-- Validate two register operands in operand order (R84). -/
def withRegs (s : State) (ra rb : Byte) (run : Fin 8 → Fin 8 → Result) : Result :=
  withReg s ra fun i => withReg s rb fun j => run i j

end Sys2Proof.Machine
end

