-- ==== Sys2Proof/Machine/Alu.lean ====
section
/-!
DEFINITION. The ALU as a block, its operation selector, and what the instructions that reach it have in common
(spec/42_alu.md R110 to R115, R122; spec/30_encoding.md R74).
-/

namespace Sys2Proof.Machine

/-- The operation selector: the four operations, and every value the ALU does not implement (R74). -/
inductive AluOp where
  | add
  | subtract
  | multiply
  | compare
  | other (k : BitVec 4)
  deriving DecidableEq, Repr

/-- The 4-bit binding of the selector (R74). -/
def AluOp.ofSelector (k : BitVec 4) : AluOp :=
  if k = 0 then .add else if k = 1 then .subtract else if k = 2 then .multiply else if k = 7 then .compare else .other k

/-- `apply(op, ra, rb, registers, flags)`: reads both registers, then writes `x[ra]` or the flags, never both, and touches
nothing else; an operation it does not implement is UnsupportedOperation (R110 to R115). -/
def aluApply (order : CmpOrder) (op : AluOp) (ra rb : Fin 8) (x : Regs) (fl : Flags) : Except ErrInfo (Regs × Flags) :=
  match op with
  | .add => .ok (Regs.put x ra ((x[ra].toNat : Int) + x[rb].toNat), fl)
  | .subtract => .ok (Regs.put x ra ((x[ra].toNat : Int) - x[rb].toNat), fl)
  | .multiply => .ok (Regs.put x ra ((x[ra].toNat : Int) * x[rb].toNat), fl)
  | .compare => .ok (x, cmpFlags order x[ra] x[rb])
  | .other k => .error (.unsupportedOperation k)

/-- The execute phase of an ALU row: both operands validated, the ALU applied, the pc advanced by the dispatcher (R110, R122). -/
def runAlu (op : AluOp) (row : Row) (regA regB : Byte) (s : State) : Result :=
  withRegs s regA regB fun ra rb =>
    match aluApply s.cfg.cmpOrder op ra rb s.x s.fl with
    | .error e => .next (s.raise e)
    | .ok (x, fl) => .next ({ s with x := x, fl := fl }.advance row)

end Sys2Proof.Machine
end

