-- ==== Sys2Proof/Machine/Arithmetic.lean ====
section
/-!
DEFINITION. MUL, CMP, ADD, SUB (spec/42_alu.md R116 to R119).
-/

namespace Sys2Proof.Machine

/-- MUL reg_a, reg_b (R116, R113). -/
def execMul (regA regB : Byte) (s : State) : Result := runAlu .multiply .mul regA regB s

/-- CMP reg_a, reg_b: compares the values held, not the indices (R117, R114). -/
def execCmp (regA regB : Byte) (s : State) : Result := runAlu .compare .cmp regA regB s

/-- ADD reg_a, reg_b (R118, R111). Its row is in force only under `EXT_ADDSUB`, which the decoder sees to (R73). -/
def execAdd (regA regB : Byte) (s : State) : Result := runAlu .add .add regA regB s

/-- SUB reg_a, reg_b (R119, R112). Its row is in force only under `EXT_ADDSUB`, which the decoder sees to (R73). -/
def execSub (regA regB : Byte) (s : State) : Result := runAlu .subtract .sub regA regB s

end Sys2Proof.Machine
end

