-- ==== Sys2Proof/Machine/HaltLoadPrint.lean ====
section
/-!
DEFINITION. HLT, LDI, PRN (spec/41_halt_load_print.md R100 to R102).
-/

namespace Sys2Proof.Machine

/-- HLT: the pc moves past it and the loop halts cleanly (R100). -/
def execHlt (s : State) : Result := .next (s.advance .hlt).haltClean

/-- LDI reg, value: `x[reg] <- value` (R101). -/
def execLdi (reg value : Byte) (s : State) : Result :=
  withReg s reg fun i => .next ((s.writeReg i value.toNat).advance .ldi)

/-- PRN reg: emit `x[reg]` (R102). -/
def execPrn (reg : Byte) (s : State) : Result :=
  withReg s reg fun i => .next ((s.emit (s.reg i)).advance .prn)

end Sys2Proof.Machine
end

