-- ==== Sys2Proof/Machine/Jumps.lean ====
section
/-!
DEFINITION. JMP, JEQ, JNE (spec/43_jumps.md R130 to R135).
-/

namespace Sys2Proof.Machine

/-- A jump whose condition is `taken`: absolute, to the value of the register, with no check of the target; otherwise the pc
moves past the instruction. The operand is validated either way (R84, R133). -/
def jumpIf (taken : Bool) (row : Row) (reg : Byte) (s : State) : Result :=
  withReg s reg fun i => .next (if taken then s.setPc (s.reg i).toNat else s.advance row)

/-- JMP reg (R130). -/
def execJmp (reg : Byte) (s : State) : Result := jumpIf true .jmp reg s

/-- JEQ reg (R131). -/
def execJeq (reg : Byte) (s : State) : Result := jumpIf s.fl.equalSet .jeq reg s

/-- JNE reg (R132). -/
def execJne (reg : Byte) (s : State) : Result := jumpIf s.fl.equalClear .jne reg s

end Sys2Proof.Machine
end

