-- ==== Sys2Proof/Machine/Dispatch.lean ====
section
/-!
DEFINITION. The dispatcher: operand validation and execute of one decoded instruction (spec/40_cycle.md R84, R85).
-/

namespace Sys2Proof.Machine

/-- One arm per row of spec/opcode_table.json. -/
def exec (i : Instr) (s : State) : Host.Outcome State Fault Refusal :=
  match i with
  | .hlt => Sys2Proof.Machine.execHlt s
  | .ldi reg value => Sys2Proof.Machine.execLdi reg value s
  | .prn reg => Sys2Proof.Machine.execPrn reg s
  | .mul regA regB => Sys2Proof.Machine.execMul regA regB s
  | .cmp regA regB => Sys2Proof.Machine.execCmp regA regB s
  | .jmp reg => Sys2Proof.Machine.execJmp reg s
  | .jeq reg => Sys2Proof.Machine.execJeq reg s
  | .jne reg => Sys2Proof.Machine.execJne reg s
  | .add regA regB => Sys2Proof.Machine.execAdd regA regB s
  | .sub regA regB => Sys2Proof.Machine.execSub regA regB s

end Sys2Proof.Machine
end

