-- ==== Sys2Proof/Machine/Fetch.lean ====
section
/-!
DEFINITION. The phases of a step before operand validation: opcode fetch, decode, operand fetch, in that order
(spec/40_cycle.md R80 to R83), and the placing of a table row's bytes where the next fetch reads.
-/

namespace Sys2Proof.Machine

/-- Fetch and decode the instruction at the pc, or the first error on the way (R80 to R83, R146). -/
def State.fetch (s : State) : Except ErrInfo Instr :=
  match s.memRead s.pc with
  | .error e => .error e
  | .ok op =>
    match decodeOpcode s.cfg op with
    | none => .error (.unknownInstruction op s.pc)
    | some row =>
      match s.readBytes (s.pc + 1) row.operandCount with
      | .error e => .error e
      | .ok operands => .ok (row.instr operands)

/-- The bytes that stand at an address and the next ones, at most `n`, as far as memory goes. -/
def State.bytesAt (s : State) (addr : Nat) : Nat → List Byte
  | 0 => []
  | n + 1 =>
    match s.memRead addr with
    | .error _ => []
    | .ok b => b :: State.bytesAt s (addr + 1) n

/-- Put bytes at an address and the next ones; a cell that does not exist takes none. -/
def State.putBytes (s : State) (addr : Nat) : List Byte → State
  | [] => s
  | b :: bs =>
    match s.memWrite addr b with
    | .error _ => s
    | .ok t => State.putBytes t (addr + 1) bs

end Sys2Proof.Machine
end

