-- ==== Sys2Proof/Machine/Step.lean ====
section
/-!
DEFINITION. One step of the execution loop (spec/40_cycle.md R80, R89), and a table row's word placed for the next fetch.
-/

namespace Sys2Proof.Machine

/-- A Halted core takes no step: the state stays as it is (R89). A Running one fetches, decodes, validates and executes; the
first phase that fails ends the step with its fatal error (R80). -/
def step (s : State) : Host.Outcome State Fault Refusal :=
  match s.run with
  | .halted => .next s
  | .running =>
    match s.fetch with
    | .error e => .next (s.raise e)
    | .ok i => exec i s

/-- The word of a table row stored at the pc, with its row in force (log entry 5 and, for how a program comes to run, log
entry 8). -/
def State.withFetchWord (s : State) (nbits w : Nat) : State :=
  let t := s.putBytes s.pc (tableBytes nbits w)
  { t with cfg := Config.withRowOf t.cfg ((tableBytes nbits w).getD 0 0) }

end Sys2Proof.Machine
end

