-- ==== Sys2Proof/Machine/Loader.lean ====
section
/-!
DEFINITION. What stands in memory before the first fetch: the program-image text (spec/30_encoding.md R70) and the boot
precondition (spec/70_reset_and_hazards.md R171). The Loader program itself is outside the core (spec/00_scope.md R4).
-/

namespace Sys2Proof.Machine

/-- What one line of the image text is (R70). -/
inductive ImageLine where
  /-- blank, comment only, or no binary literal: skipped -/
  | skip
  /-- a binary literal of 8 digits -/
  | byte (b : Byte)
  /-- a binary literal of another length: outside the format's precondition (D22, log entry 9) -/
  | badLength
  deriving DecidableEq, Repr

/-- The characters without leading and trailing whitespace. What counts as whitespace is Lean's `Char.isWhitespace`
(DESIGN CHOICE, log entry 9). -/
def stripSpace (s : List Char) : List Char :=
  ((s.dropWhile Char.isWhitespace).reverse.dropWhile Char.isWhitespace).reverse

/-- The number a string of `0` and `1` denotes in base 2, the first character most significant (R70). -/
def binaryValue (s : List Char) : Nat := s.foldl (fun n c => 2 * n + (if c = '1' then 1 else 0)) 0

/-- One line of the image text: the comment cut off, whitespace removed, then a binary literal or a line to skip (R70). -/
def parseImageLine (line : List Char) : ImageLine :=
  let s := stripSpace (line.takeWhile fun c => c ≠ '#')
  if s ≠ [] ∧ s.all (fun c => c = '0' || c = '1') then
    if s.length = 8 then .byte (BitVec.ofNat 8 (binaryValue s)) else .badLength
  else .skip

/-- The image the lines of a text denote, in file order; none where a literal is not of 8 digits (R70, D22). -/
def parseImage : List (List Char) → Option (List Byte)
  | [] => some []
  | line :: lines =>
    match parseImageLine line with
    | .skip => parseImage lines
    | .byte b => (parseImage lines).map (b :: ·)
    | .badLength => none

/-- The eight digits of a byte, most significant first: the line that stands for it in an image text (R70). -/
def imageLineOf (b : Byte) : List Char :=
  [7, 6, 5, 4, 3, 2, 1, 0].map fun i => if b.getLsbD i then '1' else '0'

/-- Write bytes into memory in order, from an address on; the first address out of range is the error (R42, R158). -/
def State.load (s : State) (addr : Nat) : List Byte → Except ErrInfo State
  | [] => .ok s
  | b :: bs =>
    match s.memWrite addr b with
    | .error e => .error e
    | .ok t => State.load t (addr + 1) bs

/-- The machine ready for its first step: reset, memory cleared to `MEM_FILL`, the image written from address 0 on (R171). -/
def State.boot (cfg : Config) (regReset : Regs) (image : List Byte) : Except ErrInfo State :=
  (State.afterReset cfg [] regReset).load 0 image

end Sys2Proof.Machine
end

