-- ==== Sys2Proof/Machine/Ports.lean ====
section
/-!
DEFINITION. The block boundary of the core (spec/10_state.md R29): its two input events, and what the outside may read of it:
the status port, the reporter's lines (spec/41_halt_load_print.md R102) and the trace facility (spec/60_exceptions.md R155).
-/

namespace Sys2Proof.Machine

/-- The input events, and there are no others (R29, R150, R175). -/
inductive Event where
  /-- the reset event; the argument is what the registers hold after it, which the spec leaves open (R33, R170) -/
  | reset (regReset : Regs)
  /-- one step (R90) -/
  | step
  deriving DecidableEq, Repr

/-- What the core does on an event (R29, R170). -/
def State.onEvent (s : State) : Event → Host.Outcome State Fault Refusal
  | .reset regReset => .next (s.applyReset regReset)
  | .step => Sys2Proof.Machine.step s

/-- The status port (R29), the flags in their packed view (R22). -/
structure Status where
  run : RunState
  exit : ExitSignal
  errinfo : Option ErrInfo
  pc : Nat
  x : Regs
  fl : Byte
  deriving DecidableEq, Repr

/-- What the status port shows (R29, R173). -/
def State.status (s : State) : Status where
  run := s.run
  exit := s.exit
  errinfo := s.errinfo
  pc := s.pc
  x := s.x
  fl := s.fl.packed

/-- The unsigned decimal numerals the reporter shows, one per emitted byte, in order (R102). That a numeral has no padding and no
leading zeros, and that no line terminator is shown, is the model's choice (DESIGN CHOICE, log entry 15): R102 and N12 leave it
open. -/
def State.reporterLines (s : State) : List String := s.out.map fun b => toString b.toNat

/-- What the trace facility reads: the pc, the cell there and the next two, the registers (R155). A cell out of range is none:
the spec leaves unsaid what is shown there (N11). -/
structure TraceView where
  pc : Nat
  cells : List (Option Byte)
  x : Regs
  deriving DecidableEq, Repr

/-- The trace facility's snapshot; it changes nothing (R155). -/
def State.trace (s : State) : TraceView where
  pc := s.pc
  cells := [0, 1, 2].map fun k => (s.memRead (s.pc + k)).toOption
  x := s.x

end Sys2Proof.Machine
end

