-- ==== Sys2Proof/Safety.lean ====
section
/-!
DEFINITION. The terms claims are stated in: the invariant of the machine, how a run has ended, and when two states differ only
where no program can look.
-/

namespace Sys2Proof.Machine

/-- What the context of a fatal error says of the state it stands in: an unknown byte stands at its address, matches no row, and
the pc is just past it; an address out of range is at or past the end of memory and one of the three the instruction at the pc
could need; an invalid index is above 7 and is an operand byte of the instruction at the pc; UnsupportedOperation never happens
(R141 to R144, R148). -/
def ErrInfo.Truthful (s : State) : ErrInfo → Prop
  | .unknownInstruction byte addr =>
    addr < s.cfg.memSize ∧ s.mem.read addr = byte ∧ decodeOpcode s.cfg byte = none ∧ s.pc = addr + 1
  | .unsupportedOperation _ => False
  | .outOfRange addr => s.cfg.memSize ≤ addr ∧ s.pc ≤ addr ∧ addr ≤ s.pc + 2
  | .invalidRegister index addr =>
    s.pc = addr ∧ 8 ≤ index.toNat ∧
      (addr + 1 < s.cfg.memSize ∧ s.mem.read (addr + 1) = index ∨ addr + 2 < s.cfg.memSize ∧ s.mem.read (addr + 2) = index)

/-- The invariant every step keeps. -/
structure State.Inv (s : State) : Prop where
  /-- memory is in its canonical form -/
  mem_wf : s.mem.wf
  /-- no cell is listed that does not exist (R40) -/
  mem_bounded : ∀ c ∈ s.mem, c.1 < s.cfg.memSize
  /-- the pc is at most `PC_MAX` (R18) -/
  pc_le : s.pc ≤ s.cfg.pcMax
  /-- at most one flag is set: the four values of R20 -/
  one_flag : s.fl.count ≤ 1
  /-- while Running there is no exit signal and no error context (R32) -/
  running_clean : s.run = .running → s.exit = .ok ∧ s.errinfo = none
  /-- the exit signal is the one of the recorded error, or `EXIT_OK` when there is none (R145, R157) -/
  exit_matches : s.exit = (s.errinfo.map ErrInfo.signal).getD .ok
  /-- the recorded context is true (R140, R145) -/
  errinfo_true : ∀ e, s.errinfo = some e → e.Truthful s
  /-- the parameters are legal (R5, R63) -/
  cfg_wf : s.cfg.wf

/-- A run has ended cleanly (R157, R173). -/
def State.HaltedCleanly (s : State) : Prop := s.run = .halted ∧ s.exit = .ok ∧ s.errinfo = none

/-- A run has ended in the fatal error `e` (R147, R173). -/
def State.HaltedBy (s : State) (e : ErrInfo) : Prop := s.run = .halted ∧ s.exit = e.signal ∧ s.errinfo = some e

/-- The state with another `CMP_ORDER`. -/
def State.withOrder (s : State) (o : CmpOrder) : State := { s with cfg := { s.cfg with cmpOrder := o } }

/-- Two states that agree on all a program can look at: they may differ in `CMP_ORDER` and in the flags Less and Greater
alone (R21, R121). -/
def State.SameToPrograms (s t : State) : Prop :=
  { s.withOrder .unsigned with fl := { l := false, g := false, e := s.fl.e } }
    = { t.withOrder .unsigned with fl := { l := false, g := false, e := t.fl.e } }

end Sys2Proof.Machine

namespace Sys2Proof

/-- The registers an instruction reads, given the flags: the "Reads" column of R13. -/
def Instr.reads (fl : Machine.Flags) : Instr → List Byte
  | .hlt => []
  | .ldi _ _ => []
  | .prn reg => [reg]
  | .mul regA regB => [regA, regB]
  | .cmp regA regB => [regA, regB]
  | .jmp reg => [reg]
  | .jeq reg => if fl.e then [reg] else []
  | .jne reg => if fl.e then [] else [reg]
  | .add regA regB => [regA, regB]
  | .sub regA regB => [regA, regB]

/-- The registers an instruction writes: the "Writes" column of R13. -/
def Instr.writes : Instr → List Byte
  | .hlt => []
  | .ldi reg _ => [reg]
  | .prn _ => []
  | .mul regA _ => [regA]
  | .cmp _ _ => []
  | .jmp _ => []
  | .jeq _ => []
  | .jne _ => []
  | .add regA _ => [regA]
  | .sub regA _ => [regA]

end Sys2Proof
end

