-- ==== Sys2Proof/Certificates/Slice0/Obligations.lean ====
section
/-!
DEFINITION. The statements for the provers. Each says a rule of spec/, over every state and every legal parameter unless a
hypothesis says otherwise.
-/

namespace Sys2Proof.Claims

open Sys2Proof.Machine

/-- The state `s` ended by InvalidRegister for the operand `r`: nothing else changes, the pc included (R142, R147,
R148; that the pc stays is the spec's decision D9). -/
def badRegister (s : State) (r : Byte) : State :=
  { s with run := .halted, exit := .invalidRegister, errinfo := some (.invalidRegister r s.pc) }

/-- The state `s` ended by OutOfRange for the address `a`: nothing else changes, the pc included (R141, R147, R148; that
the pc stays is the spec's decision D9). -/
def outOfRange (s : State) (a : Nat) : State :=
  { s with run := .halted, exit := .outOfRange, errinfo := some (.outOfRange a) }

/-- The state `s` ended by UnknownInstruction for the byte `b` at the pc: the pc moves past the byte, nothing else changes
(R144, R147, R148). -/
def unknownInstruction (s : State) (b : Byte) : State :=
  { s with pc := s.pc + 1, run := .halted, exit := .unknownInstruction, errinfo := some (.unknownInstruction b s.pc) }

/-- The byte that names register `i` as an operand (R66). -/
def regByte (i : Fin 8) : Byte := BitVec.ofNat 8 i.val

/-- The OutOfRange errors of an instruction of a row: at the opcode address `a`, then at `a + 1`, then at `a + 2`, as far as the
row has operands (R81, R83). -/
def FetchOutOfRange (row : Row) : Prop :=
  ∀ s : State, s.run = .running →
    (s.cfg.memSize ≤ s.pc → step s = .next (outOfRange s s.pc)) ∧
    (∀ k, s.memRead s.pc = .ok (s.cfg.opcode row) → decodeOpcode s.cfg (s.cfg.opcode row) = some row →
      1 ≤ k → k ≤ row.operandCount → s.cfg.memSize ≤ s.pc + k → (∀ j < k, s.pc + j < s.cfg.memSize) →
      step s = .next (outOfRange s (s.pc + k)))

/-- The InvalidRegister errors of an instruction with one register operand (R84, R142). -/
def OneRegisterChecked (f : Byte → Instr) : Prop :=
  ∀ (s : State) (r : Byte), 8 ≤ r.toNat → exec (f r) s = .next (badRegister s r)

/-- The InvalidRegister errors of an instruction with two register operands: the first bad one is reported (R84, R142). -/
def TwoRegistersChecked (f : Byte → Byte → Instr) : Prop :=
  ∀ (s : State) (ra rb : Byte),
    (8 ≤ ra.toNat → exec (f ra rb) s = .next (badRegister s ra)) ∧
    (ra.toNat ≤ 7 → 8 ≤ rb.toNat → exec (f ra rb) s = .next (badRegister s rb))

/-- The row exists only under `EXT_ADDSUB`: without it the decoder never answers an instruction of the row, and its opcode byte,
where no row in force has the same, stops the machine as unknown (R73, R118, R119). -/
def OnlyWithExtension (row : Row) : Prop :=
  (∀ (cfg : Config) (bytes rest : List Byte) (i : Instr),
    decode cfg bytes = .ok (i, rest) → i.row = row → cfg.extAddSub = true) ∧
  (∀ s : State, s.run = .running → s.cfg.extAddSub = false → s.memRead s.pc = .ok (s.cfg.opcode row) →
    (∀ r : Row, r.inForce s.cfg = true → s.cfg.opcode r ≠ s.cfg.opcode row) →
    step s = .next (unknownInstruction s (s.cfg.opcode row)))

/-- The number Compare takes a byte for: its value 0..255, or under the other `CMP_ORDER` its two's-complement reading (R121). -/
def compareKey : CmpOrder → Byte → Int
  | .unsigned, v => v.toNat
  | .twosComplement, v => v.toInt

/-- The flag triple of a comparison: Less, Greater, Equal (R121). -/
def comparison (order : CmpOrder) (va vb : Byte) : Flags where
  l := decide (compareKey order va < compareKey order vb)
  g := decide (compareKey order va > compareKey order vb)
  e := decide (compareKey order va = compareKey order vb)

/-- The instruction is a jump through register operand `r` that is taken in `s`: JMP, JEQ with Equal set, JNE with Equal clear
(R130, R131, R132). -/
def TakenJump (s : State) (i : Instr) (r : Byte) : Prop :=
  i = .jmp r ∨ (i = .jeq r ∧ s.fl.e = true) ∨ (i = .jne r ∧ s.fl.e = false)

end Sys2Proof.Claims

open Sys2Proof Sys2Proof.Machine Sys2Proof.Claims

/-! ### Encoding -/

/-- R60, R63, R64, R75: an instruction of the set in force, encoded with any distinct opcode bytes and any operand bytes, decodes
to itself, and the bytes after it are left over. -/
def Obligations.EncodeThenDecode : Prop :=
  ∀ (cfg : Config) (i : Instr) (rest : List Byte), cfg.opcodesDistinct → i.row.inForce cfg = true →
    decode cfg (encode cfg i ++ rest) = .ok (i, rest)

/-- R60, R61, R64: the bytes a decode consumed are the encoding of what it answered, and the row is in force: no bit of an
encoding is dropped, and no other bytes decode to the instruction. -/
def Obligations.DecodeThenEncode : Prop :=
  ∀ (cfg : Config) (bytes rest : List Byte) (i : Instr), decode cfg bytes = .ok (i, rest) →
    encode cfg i ++ rest = bytes ∧ i.row.inForce cfg = true

/-- R64: `Decode` is the lookup in the table in force: the row whose opcode byte it is, else none; it is a function of the byte
and the parameters alone. -/
def Obligations.DecodeIsTableLookup : Prop :=
  ∀ (cfg : Config) (b : Byte), cfg.opcodesDistinct →
    (∀ r : Row, decodeOpcode cfg b = some r ↔ r.inForce cfg = true ∧ cfg.opcode r = b) ∧
    (decodeOpcode cfg b = none ↔ ∀ r : Row, r.inForce cfg = true → cfg.opcode r ≠ b)

/-- R68, R60: the length is 1 plus the operand count of `Decode(opcode)`, told from the opcode byte alone, and an unknown opcode
has no length. -/
def Obligations.LengthFromOpcode : Prop :=
  ∀ (cfg : Config) (op : Byte) (tail : List Byte),
    (∀ row, decodeOpcode cfg op = some row → row.operandCount ≤ tail.length →
      ∃ i rest, decode cfg (op :: tail) = .ok (i, rest) ∧ (op :: tail).length = (1 + row.operandCount) + rest.length) ∧
    (decodeOpcode cfg op = none → decode cfg (op :: tail) = .error (.unknownOpcode op))

/-- R62, R73 and the vectors V-DEC: words written out from the spec's encodings decode to the instructions they stand for. -/
def Obligations.SpecWordsDecode : Prop :=
  decode Config.default [0x01] = .ok (.hlt, []) ∧
  decode Config.default [0x82, 0x00, 0x05] = .ok (.ldi 0 5, []) ∧
  decode Config.default [0x47, 0x00] = .ok (.prn 0, []) ∧
  decode Config.default [0xA2, 0x00, 0x01] = .ok (.mul 0 1, []) ∧
  decode Config.default [0xA7, 0x00, 0x01] = .ok (.cmp 0 1, []) ∧
  decode Config.default [0x54, 0x02] = .ok (.jmp 2, []) ∧
  decode Config.default [0x55, 0x02] = .ok (.jeq 2, []) ∧
  decode Config.default [0x56, 0x02] = .ok (.jne 2, []) ∧
  decode Config.allRows [0xA0, 0x02, 0x03] = .ok (.add 2 3, []) ∧
  decode Config.allRows [0xA1, 0x00, 0x01] = .ok (.sub 0 1, []) ∧
  decode Config.default [0xA0, 0x02, 0x03] = .error (.unknownOpcode 0xA0) ∧
  decode Config.default [0xA1, 0x00, 0x01] = .error (.unknownOpcode 0xA1) ∧
  decode Config.default [0x00] = .error (.unknownOpcode 0x00) ∧
  decode Config.default [0xFF] = .error (.unknownOpcode 0xFF)

/-- R63, R65, R73: the default numerals are pairwise distinct with eight rows and with ten, and 248 of the 256 bytes are unknown
(246 with ADD and SUB). The numerals themselves are the spec's own presumption (log entry 1). -/
def Obligations.DefaultOpcodeMap : Prop :=
  Config.default.wf ∧ Config.allRows.wf ∧ Config.default.rows.length = 8 ∧ Config.allRows.rows.length = 10 ∧
  ((List.range 256).filter fun n => decodeOpcode Config.default (BitVec.ofNat 8 n) = none).length = 248 ∧
  ((List.range 256).filter fun n => decodeOpcode Config.allRows (BitVec.ofNat 8 n) = none).length = 246

/-- R70: an image text of one eight-digit literal a line, with any whitespace around it and any comment after it, denotes those
bytes in file order; a line with nothing before its comment is skipped. -/
def Obligations.ImageTextDenotesBytes : Prop :=
  (∀ image : List Byte, parseImage (image.map imageLineOf) = some image) ∧
  (∀ (b : Byte) (before after comment : List Char),
    (∀ c ∈ before ++ after, c.isWhitespace = true) →
    parseImageLine (before ++ imageLineOf b ++ after) = .byte b ∧
    parseImageLine (before ++ imageLineOf b ++ after ++ '#' :: comment) = .byte b ∧
    parseImageLine (before ++ '#' :: comment) = .skip)

/-! ### Reset and boot -/

/-- R170, R30, R31, R32, R34: the reset event, in any state, leaves pc 0, clear flags, Running, `EXIT_OK`, no error context, an
empty output trace and the registers of this reset, whatever they are; memory and parameters are untouched; and it is the only
event that leaves Halted. -/
def Obligations.ResetEventLeaves : Prop :=
  ∀ (s : State) (regReset : Regs),
    s.onEvent (.reset regReset) = .next
      { s with x := regReset, pc := 0, fl := { l := false, g := false, e := false }, run := .running, exit := .ok,
               errinfo := none, out := [] } ∧
    (s.run = .halted → s.onEvent .step = .next s)

/-- R30, R31: after reset the pc is 0, so the first opcode is read at address 0; all flags are clear, so JEQ does not jump and JNE
jumps. -/
def Obligations.ResetEntryAndFlags : Prop :=
  ∀ (s t : State) (regReset : Regs), s.onEvent (.reset regReset) = .next t →
    t.pc = 0 ∧ t.fl = { l := false, g := false, e := false } ∧
    (∀ i rest, decode t.cfg (t.bytesAt 0 3) = .ok (i, rest) → step t = exec i t) ∧
    (∀ (r : Byte) (k : Fin 8), r.toNat = k.val →
      exec (.jeq r) t = .next { t with pc := 2 } ∧ exec (.jne r) t = .next { t with pc := (t.reg k).toNat })

/-- The state the host calls reset: the reset event's, at the spec's settings, with no memory listed and zero in every register.
The zeros are the model's choice (log entry 2), the settings are the spec's defaults (log entries 1, 4, 5, 6). -/
def Obligations.HostResetState : Prop :=
  State.reset.pc = 0 ∧ State.reset.fl = { l := false, g := false, e := false } ∧ State.reset.run = .running ∧
  State.reset.exit = .ok ∧ State.reset.errinfo = none ∧ State.reset.out = [] ∧ State.reset.mem = [] ∧
  State.reset.cfg = Config.default ∧ (∀ i : Fin 8, State.reset.reg i = 0) ∧
  (∀ s : State, s.cfg = Config.default → s.mem = [] → s.onEvent (.reset (Vector.replicate 8 0)) = .next State.reset)

/-- The invariant holds after reset, whatever the registers hold, of every machine with legal parameters whose memory is in
canonical form and within its size; the host's reset state is one. -/
def Obligations.ResetMeetsInvariant : Prop :=
  State.reset.Inv ∧
  ∀ (s : State) (regReset : Regs), s.cfg.wf → s.mem.wf → (∀ c ∈ s.mem, c.1 < s.cfg.memSize) →
    (s.applyReset regReset).Inv

/-- R171: an image that fits boots: it stands at address 0 on in file order, every other cell holds 0x00, and the state is that
after reset; an image that does not fit fails in the Loader at the first address that does not exist; the empty image is legal
and the first step then raises UnknownInstruction where 0x00 is no opcode. -/
def Obligations.BootPlacesImage : Prop :=
  ∀ (cfg : Config) (regReset : Regs) (image : List Byte),
    (∀ _ : image.length ≤ cfg.memSize, ∃ s, State.boot cfg regReset image = .ok s ∧
      (∀ a (h : a < image.length), s.memRead a = .ok image[a]) ∧
      (∀ a, image.length ≤ a → a < cfg.memSize → s.memRead a = .ok 0x00) ∧
      s.mem.wf ∧ s = State.afterReset cfg s.mem regReset) ∧
    (cfg.memSize < image.length → State.boot cfg regReset image = .error (.outOfRange cfg.memSize)) ∧
    (∀ s, State.boot cfg regReset [] = .ok s → 1 ≤ cfg.memSize → decodeOpcode cfg 0x00 = none →
      step s = .next (unknownInstruction s 0x00))

/-! ### Memory -/

/-- R41, R43: a read below `MEM_SIZE` answers the byte the cell holds, the listed one or else `MEM_FILL`, and is a value (nothing
changes); a read at or past it is OutOfRange with that address and does not wrap. The premise is the memory part of the
invariant. -/
def Obligations.MemReadContract : Prop :=
  ∀ (s : State) (a : Nat), s.mem.wf →
    (∀ v, a < s.cfg.memSize → (a, v) ∈ s.mem → s.memRead a = .ok v) ∧
    (a < s.cfg.memSize → (∀ v, (a, v) ∉ s.mem) → s.memRead a = .ok 0x00) ∧
    (s.cfg.memSize ≤ a → s.memRead a = .error (.outOfRange a))

/-- R42: a write below `MEM_SIZE` changes that one cell, every other address reads as before and nothing else of the state
changes; a write at or past it is OutOfRange with that address; and no instruction calls it, so none changes a cell. The premise
is the memory part of the invariant. That the written memory keeps the canonical form (`m.wf`) is no clause of R42: the form is
the model's choice (log entry 3). -/
def Obligations.MemWriteContract : Prop :=
  ∀ (s : State) (a : Nat) (v : Byte), s.mem.wf →
    (a < s.cfg.memSize → ∃ m, s.memWrite a v = .ok { s with mem := m } ∧ m.wf ∧ m.read a = v ∧
      ∀ b, b ≠ a → m.read b = s.mem.read b) ∧
    (s.cfg.memSize ≤ a → s.memWrite a v = .error (.outOfRange a)) ∧
    ∀ (i : Instr) (t : State), exec i s = .next t → t.mem = s.mem

/-- The canonical form of memory is canonical: two memories that read alike everywhere are equal data. The form is the model's
(log entry 3). -/
def Obligations.CanonicalMemoryExtensional : Prop :=
  ∀ m m' : Memory, m.wf → m'.wf → (∀ a, m.read a = m'.read a) → m = m'

/-- R46, R10: no step changes memory or a parameter, so both are constant over any number of steps, and the reset event keeps
them too. -/
def Obligations.MemoryConstantInARun : Prop :=
  (∀ (k : Nat) (s t : State), Sys2Proof.core.run k s = .next t → t.mem = s.mem ∧ t.cfg = s.cfg) ∧
  (∀ (s t : State) (e : Event), s.onEvent e = .next t → t.mem = s.mem ∧ t.cfg = s.cfg)

/-! ### Registers and operands -/

/-- R14: `x[i] <- v` stores `v` modulo 256 for every integer `v` and a read gives it back; no other register changes; no
instruction changes a register outside its "Writes" column (R13), and no fatal error changes any. -/
def Obligations.RegisterWriteWraps : Prop :=
  (∀ (s : State) (i : Fin 8) (v : Int),
    (((s.writeReg i v).reg i).toNat : Int) = v % 256 ∧ ∀ j : Fin 8, j ≠ i → (s.writeReg i v).reg j = s.reg j) ∧
  (∀ (i : Instr) (s t : State) (j : Fin 8), exec i s = .next t → regByte j ∉ i.writes → t.reg j = s.reg j) ∧
  (∀ (s t : State), s.errinfo = none → step s = .next t → t.errinfo ≠ none → t.x = s.x)

/-- R13: an instruction changes no register but those of its "Writes" column, and depends on none but those of its "Reads"
column: with another value in any other register it does the same, and that value is still there afterwards unless the
instruction writes the register. -/
def Obligations.RegisterAccessTable : Prop :=
  ∀ (i : Instr) (s t : State) (j : Fin 8), exec i s = .next t →
    (regByte j ∉ i.writes → t.reg j = s.reg j) ∧
    (∀ v : Int, regByte j ∉ i.reads s.fl →
      exec i (s.writeReg j v) = .next (if regByte j ∈ i.writes ∧ i.regsInRange then t else t.writeReg j v))

/-- R15, R142, R84, R148, R85: every register operand is checked, in operand order, before any effect and whether or not the
register is then read; the first above 7 is InvalidRegister with its value and the instruction's address, and the pc stays; LDI's
`value` is not checked, and an instruction whose register operands are all in 0..7 raises no error. The spec's own decisions in
it: the check of a jump not taken is D20, the pc's staying is D9. -/
def Obligations.OperandValidation : Prop :=
  ∀ (i : Instr) (s : State),
    (∀ r, i.firstBadReg = some r → exec i s = .next (badRegister s r)) ∧
    (i.regsInRange = true → ∃ t, exec i s = .next t ∧ (t.errinfo = s.errinfo ∧ t.exit = s.exit ∧ t.run = s.run ∨
      i = .hlt ∧ t.errinfo = none ∧ t.exit = .ok))

/-! ### The instructions -/

/-- R100: HLT moves the pc past itself and halts cleanly; nothing else changes. -/
def Obligations.HltHaltsCleanly : Prop :=
  (∀ s : State, exec .hlt s = .next { s with pc := s.pc + 1, run := .halted, exit := .ok, errinfo := none }) ∧
  FetchOutOfRange .hlt

/-- R101: LDI puts its immediate byte into the register, pc + 3; nothing else changes. -/
def Obligations.LdiLoadsImmediate : Prop :=
  (∀ (s : State) (r value : Byte) (i : Fin 8), r.toNat = i.val →
    exec (.ldi r value) s = .next { s with x := s.x.set i value, pc := s.pc + 3 }) ∧
  (∀ value : Byte, OneRegisterChecked fun r => .ldi r value) ∧
  FetchOutOfRange .ldi

/-- R102: PRN appends the register's byte to the output trace, pc + 2; nothing else changes. -/
def Obligations.PrnEmitsRegister : Prop :=
  (∀ (s : State) (r : Byte) (i : Fin 8), r.toNat = i.val →
    exec (.prn r) s = .next { s with out := s.out ++ [s.x[i]], pc := s.pc + 2 }) ∧
  OneRegisterChecked .prn ∧
  FetchOutOfRange .prn

/-- R116, R113: MUL puts the product modulo 256 of the values held before into `reg_a`, pc + 3; nothing else changes. -/
def Obligations.MulMultiplies : Prop :=
  (∀ (s : State) (ra rb : Byte) (i j : Fin 8), ra.toNat = i.val → rb.toNat = j.val →
    exec (.mul ra rb) s =
      .next { s with x := s.x.set i (BitVec.ofNat 8 ((s.x[i].toNat * s.x[j].toNat) % 256)), pc := s.pc + 3 }) ∧
  TwoRegistersChecked .mul ∧
  FetchOutOfRange .mul

/-- R117: CMP sets the flags to the comparison of the values held, not of the indices, exactly one of them to 1, pc + 3; nothing
else changes. -/
def Obligations.CmpComparesValues : Prop :=
  (∀ (s : State) (ra rb : Byte) (i j : Fin 8), ra.toNat = i.val → rb.toNat = j.val →
    exec (.cmp ra rb) s = .next { s with fl := comparison s.cfg.cmpOrder s.x[i] s.x[j], pc := s.pc + 3 } ∧
      (comparison s.cfg.cmpOrder s.x[i] s.x[j]).count = 1) ∧
  TwoRegistersChecked .cmp ∧
  FetchOutOfRange .cmp

/-- R118, R111, R73: ADD puts the sum modulo 256 of the values held before into `reg_a`, pc + 3; nothing else changes; it exists
only under `EXT_ADDSUB`. -/
def Obligations.AddAdds : Prop :=
  (∀ (s : State) (ra rb : Byte) (i j : Fin 8), ra.toNat = i.val → rb.toNat = j.val →
    exec (.add ra rb) s =
      .next { s with x := s.x.set i (BitVec.ofNat 8 ((s.x[i].toNat + s.x[j].toNat) % 256)), pc := s.pc + 3 }) ∧
  TwoRegistersChecked .add ∧
  FetchOutOfRange .add ∧
  OnlyWithExtension .add

/-- R119, R112, R73: SUB puts the difference modulo 256 of the values held before, `reg_a` minus `reg_b`, into `reg_a`, pc + 3;
nothing else changes; it exists only under `EXT_ADDSUB`. -/
def Obligations.SubSubtracts : Prop :=
  (∀ (s : State) (ra rb : Byte) (i j : Fin 8), ra.toNat = i.val → rb.toNat = j.val →
    exec (.sub ra rb) s =
      .next { s with x := s.x.set i (BitVec.ofNat 8 ((256 + s.x[i].toNat - s.x[j].toNat) % 256)), pc := s.pc + 3 }) ∧
  TwoRegistersChecked .sub ∧
  FetchOutOfRange .sub ∧
  OnlyWithExtension .sub

/-- R130: JMP sets the pc to the register's value; nothing else changes. -/
def Obligations.JmpJumps : Prop :=
  (∀ (s : State) (r : Byte) (i : Fin 8), r.toNat = i.val →
    exec (.jmp r) s = .next { s with pc := s.x[i].toNat }) ∧
  OneRegisterChecked .jmp ∧
  FetchOutOfRange .jmp

/-- R131: JEQ jumps to the register's value if Equal is set, else pc + 2; nothing else changes, and a jump not taken does not
depend on the register. -/
def Obligations.JeqJumpsOnEqual : Prop :=
  (∀ (s : State) (r : Byte) (i : Fin 8), r.toNat = i.val →
    (s.fl.e = true → exec (.jeq r) s = .next { s with pc := s.x[i].toNat }) ∧
    (s.fl.e = false → exec (.jeq r) s = .next { s with pc := s.pc + 2 })) ∧
  OneRegisterChecked .jeq ∧
  FetchOutOfRange .jeq

/-- R132: JNE jumps to the register's value if Equal is clear, else pc + 2; nothing else changes. -/
def Obligations.JneJumpsOnEqualClear : Prop :=
  (∀ (s : State) (r : Byte) (i : Fin 8), r.toNat = i.val →
    (s.fl.e = false → exec (.jne r) s = .next { s with pc := s.x[i].toNat }) ∧
    (s.fl.e = true → exec (.jne r) s = .next { s with pc := s.pc + 2 })) ∧
  OneRegisterChecked .jne ∧
  FetchOutOfRange .jne

/-- The frame of all ten instructions: every address of memory reads as before (no form stores), the parameters are as before,
every register but the destination of LDI, MUL, ADD, SUB is, every flag is unless the instruction is CMP, the output trace is
unless it is PRN, and the run state, exit signal and error context are unless it is HLT or a register operand is above 7
(R13, R21, R27, R46, R148). -/
def Obligations.InstructionFrame : Prop :=
  ∀ (i : Instr) (s t : State), exec i s = .next t →
    (∀ a, t.mem.read a = s.mem.read a) ∧ t.mem = s.mem ∧ t.cfg = s.cfg ∧
    (∀ j : Fin 8, regByte j ∉ i.writes → t.reg j = s.reg j) ∧
    (i.row ≠ .cmp → t.fl = s.fl) ∧
    (i.row ≠ .prn → t.out = s.out) ∧
    (i.row ≠ .hlt → i.regsInRange = true → t.run = s.run ∧ t.exit = s.exit ∧ t.errinfo = s.errinfo) ∧
    (i.regsInRange = false → t.x = s.x ∧ t.pc = s.pc ∧ t.fl = s.fl ∧ t.out = s.out)

/-- R17: the pc after a completed execution of each instruction. -/
def Obligations.PcAfterInstruction : Prop :=
  ∀ (i : Instr) (s t : State), i.regsInRange = true → exec i s = .next t →
    match i with
    | .hlt => t.pc = s.pc + 1 ∧ t.run = .halted
    | .prn _ => t.pc = s.pc + 2
    | .ldi _ _ | .mul _ _ | .cmp _ _ | .add _ _ | .sub _ _ => t.pc = s.pc + 3
    | .jmp r => ∀ k : Fin 8, r = regByte k → t.pc = (s.reg k).toNat
    | .jeq r => ∀ k : Fin 8, r = regByte k → t.pc = if s.fl.e then (s.reg k).toNat else s.pc + 2
    | .jne r => ∀ k : Fin 8, r = regByte k → t.pc = if s.fl.e then s.pc + 2 else (s.reg k).toNat

/-- R133: a taken jump completes whatever the target, which is the register's full value, never above 255; the next step decodes
whatever byte stands there, an instruction or not, and if no cell is there it raises OutOfRange with that address. -/
def Obligations.JumpTargetsUnchecked : Prop :=
  ∀ (s : State) (i : Instr) (r : Byte) (k : Fin 8), s.run = .running → r.toNat = k.val → TakenJump s i r →
    ∃ t, exec i s = .next t ∧ t.run = .running ∧ t.pc = (s.reg k).toNat ∧ t.pc ≤ 255 ∧
      (s.cfg.memSize ≤ t.pc → step t = .next (outOfRange t t.pc)) ∧
      (∀ i' rest, decode t.cfg (t.bytesAt t.pc 3) = .ok (i', rest) → step t = exec i' t) ∧
      (∀ b, t.memRead t.pc = .ok b → decodeOpcode t.cfg b = none → step t = .next (unknownInstruction t b))

/-! ### The ALU and the flags -/

/-- R111, R112, R113: Add, Subtract and Multiply put the exact integer result modulo 256 into `x[ra]`, both values read before the
write, and change no other register and no flag. -/
def Obligations.AluArithmeticWraps : Prop :=
  ∀ (order : CmpOrder) (ra rb : Fin 8) (x : Regs) (fl : Flags),
    (∃ y, aluApply order .add ra rb x fl = .ok (y, fl) ∧
      (y[ra].toNat : Int) = ((x[ra].toNat : Int) + x[rb].toNat) % 256 ∧ ∀ j : Fin 8, j ≠ ra → y[j] = x[j]) ∧
    (∃ y, aluApply order .subtract ra rb x fl = .ok (y, fl) ∧
      (y[ra].toNat : Int) = ((x[ra].toNat : Int) - x[rb].toNat) % 256 ∧ ∀ j : Fin 8, j ≠ ra → y[j] = x[j]) ∧
    (∃ y, aluApply order .multiply ra rb x fl = .ok (y, fl) ∧
      (y[ra].toNat : Int) = ((x[ra].toNat : Int) * x[rb].toNat) % 256 ∧ ∀ j : Fin 8, j ≠ ra → y[j] = x[j])

/-- R114: Compare changes no register, depends on the two values held and not on the indices, gives Equal for a register
with itself, and sets exactly one flag: Equal iff the keys are equal, Greater iff the first is greater, Less iff it is less,
where the key is the value 0..255 or, under the other `CMP_ORDER`, its two's-complement reading. -/
def Obligations.AluCompareSetsOneFlag : Prop :=
  ∀ (order : CmpOrder) (ra rb : Fin 8) (x : Regs) (fl : Flags),
    ∃ f, aluApply order .compare ra rb x fl = .ok (x, f) ∧ f.count = 1 ∧
      (f.e = true ↔ compareKey order x[ra] = compareKey order x[rb]) ∧
      (f.g = true ↔ compareKey order x[ra] > compareKey order x[rb]) ∧
      (f.l = true ↔ compareKey order x[ra] < compareKey order x[rb]) ∧
      (f.e = true ↔ x[ra] = x[rb]) ∧ (ra = rb → f.e = true)

/-- R121: the two orders give the same flags when the values are equal or on the same side of 128, differ exactly when one is at
most 127 and the other at least 128, and always agree on Equal. -/
def Obligations.CompareOrdersAgree : Prop :=
  ∀ va vb : Byte,
    (cmpFlags .unsigned va vb = cmpFlags .twosComplement va vb ↔ (va.toNat ≤ 127 ↔ vb.toNat ≤ 127)) ∧
    (cmpFlags .unsigned va vb).e = (cmpFlags .twosComplement va vb).e

/-- R74: the 4-bit binding of the selector: 0 Add, 1 Subtract, 2 Multiply, 7 Compare, every other value unsupported; the selector
of an ALU row is the low four bits of its default opcode. -/
def Obligations.AluSelectorBinding : Prop :=
  AluOp.ofSelector 0 = .add ∧ AluOp.ofSelector 1 = .subtract ∧ AluOp.ofSelector 2 = .multiply ∧ AluOp.ofSelector 7 = .compare ∧
  (∀ k : BitVec 4, k ∉ [0, 1, 2, 7] → AluOp.ofSelector k = .other k) ∧
  AluOp.ofSelector (Opc.default.add.setWidth 4) = .add ∧ AluOp.ofSelector (Opc.default.sub.setWidth 4) = .subtract ∧
  AluOp.ofSelector (Opc.default.mul.setWidth 4) = .multiply ∧ AluOp.ofSelector (Opc.default.cmp.setWidth 4) = .compare

/-- R120: the arithmetic is neither signed nor unsigned: the same byte results whether the operands are read as 0..255 or in two's
complement; and subtracting then adding a register restores the other. -/
def Obligations.ArithmeticSignAgnostic : Prop :=
  (∀ a b : Byte, u8 (s8 a + s8 b) = u8 ((a.toNat : Int) + b.toNat) ∧ u8 (s8 a - s8 b) = u8 ((a.toNat : Int) - b.toNat) ∧
    u8 (s8 a * s8 b) = u8 ((a.toNat : Int) * b.toNat)) ∧
  (∀ (order : CmpOrder) (ra rb : Fin 8) (x y z : Regs) (fl : Flags), ra ≠ rb →
    aluApply order .subtract ra rb x fl = .ok (y, fl) → aluApply order .add ra rb y fl = .ok (z, fl) → z = x)

/-- R20, R21: a step that changes a flag runs a CMP; after a completed CMP exactly one flag is set; and any step from a state
with at most one flag set leaves at most one set, so the flags take four values. -/
def Obligations.FlagsTakeFourValues : Prop :=
  (∀ s t : State, step s = .next t → t.fl ≠ s.fl → ∃ ra rb, s.fetch = .ok (.cmp ra rb)) ∧
  (∀ (s t : State) (ra rb : Byte), ra.toNat ≤ 7 → rb.toNat ≤ 7 → exec (.cmp ra rb) s = .next t → t.fl.count = 1) ∧
  (∀ s t : State, s.fl.count ≤ 1 → step s = .next t → t.fl.count ≤ 1)

/-- R21: CMP is the only instruction that writes the flags, and it writes all three whatever they were; JEQ and JNE are the only
ones that read them, and only Equal: with other flags (with the same Equal, for those two) every instruction does the same, and
all but CMP leave those flags as they are; a fatal error leaves them too. -/
def Obligations.FlagAccess : Prop :=
  (∀ (i : Instr) (s t : State) (f : Flags), exec i s = .next t →
    (i.row ≠ .cmp → t.fl = s.fl) ∧
    (f.e = s.fl.e ∨ (i.row ≠ .jeq ∧ i.row ≠ .jne) →
      exec i { s with fl := f } = .next { t with fl := if i.row = .cmp ∧ i.regsInRange = true then t.fl else f })) ∧
  (∀ s t : State, s.errinfo = none → step s = .next t → t.errinfo ≠ none → t.fl = s.fl)

/-- R22: the packed view has Less in bit 2, Greater in bit 1, Equal in bit 0, and bits 7..3 zero. -/
def Obligations.PackedFlags : Prop :=
  ∀ fl : Flags, fl.packed.getLsbD 2 = fl.l ∧ fl.packed.getLsbD 1 = fl.g ∧ fl.packed.getLsbD 0 = fl.e ∧
    ∀ k, 3 ≤ k → fl.packed.getLsbD k = false

/-! ### The step -/

/-- R80, R85: when the bytes at the pc of a Running core decode to an instruction, the step is the execution of it and nothing
else. -/
def Obligations.StepRunsDecodedInstruction : Prop :=
  ∀ (s : State) (i : Instr) (rest : List Byte), s.run = .running →
    decode s.cfg (s.bytesAt s.pc 3) = .ok (i, rest) → step s = exec i s

/-- R81: a Running core whose pc is at or past `MEM_SIZE` raises OutOfRange with the pc, and nothing else changes, the pc
included. -/
def Obligations.OpcodeFetchOutOfRange : Prop :=
  ∀ s : State, s.run = .running → s.cfg.memSize ≤ s.pc → step s = .next (outOfRange s s.pc)

/-- R82, R144: a byte of no row in force, fetched as an opcode, raises UnknownInstruction with the byte and its address; the pc
moves past it and nothing else changes, even in the last cell of memory. -/
def Obligations.UnknownOpcodeStops : Prop :=
  ∀ (s : State) (b : Byte), s.run = .running → s.memRead s.pc = .ok b →
    (∀ r : Row, r.inForce s.cfg = true → s.cfg.opcode r ≠ b) → step s = .next (unknownInstruction s b)

/-- R141, R83, R148: OutOfRange is raised by the opcode fetch when the pc is at or past `MEM_SIZE`, and by the operand fetch with
the first address at or past it, whatever the flags and whatever the operands; the pc stays; so an instruction that executes has
all its bytes in memory (R83); and no execute phase raises it. The spec's own decisions in it: the operand fetch of a jump not
taken is D21, the pc's staying is D9. -/
def Obligations.OutOfRangeOnlyInFetch : Prop :=
  (∀ s : State, s.run = .running → s.cfg.memSize ≤ s.pc → step s = .next (outOfRange s s.pc)) ∧
  (∀ (s : State) (row : Row) (k : Nat), s.run = .running → s.pc < s.cfg.memSize →
    decodeOpcode s.cfg (s.mem.read s.pc) = some row → 1 ≤ k → k ≤ row.operandCount → s.cfg.memSize ≤ s.pc + k →
    (∀ j < k, s.pc + j < s.cfg.memSize) → step s = .next (outOfRange s (s.pc + k))) ∧
  (∀ (s : State) (i : Instr), s.fetch = .ok i → s.pc + i.row.width ≤ s.cfg.memSize) ∧
  (∀ (i : Instr) (s t : State) (a : Nat), exec i s = .next t → t.errinfo = some (.outOfRange a) →
    s.errinfo = some (.outOfRange a))

/-- R146: the order of the checks of a step: the opcode address, the opcode, the operand addresses ascending, the register
operands in order; only the first that fails is reported, and a step none fails in reports no error. -/
def Obligations.ErrorPriority : Prop :=
  ∀ s : State, s.run = .running →
    (s.cfg.memSize ≤ s.pc → step s = .next (outOfRange s s.pc)) ∧
    (s.pc < s.cfg.memSize → decodeOpcode s.cfg (s.mem.read s.pc) = none →
      step s = .next (unknownInstruction s (s.mem.read s.pc))) ∧
    (∀ row, s.pc < s.cfg.memSize → decodeOpcode s.cfg (s.mem.read s.pc) = some row →
      (1 ≤ row.operandCount → s.cfg.memSize ≤ s.pc + 1 → step s = .next (outOfRange s (s.pc + 1))) ∧
      (2 ≤ row.operandCount → s.pc + 1 < s.cfg.memSize → s.cfg.memSize ≤ s.pc + 2 →
        step s = .next (outOfRange s (s.pc + 2))) ∧
      (s.pc + row.operandCount < s.cfg.memSize →
        let i := row.instr [s.mem.read (s.pc + 1), s.mem.read (s.pc + 2)]
        (∀ r, i.firstBadReg = some r → step s = .next (badRegister s r)) ∧
        (i.firstBadReg = none → step s = exec i s ∧ ∀ t, step s = .next t → s.errinfo = none → t.errinfo = none)))

/-- R147, R148: what a fatal error does and leaves: Halted, the error's signal and context, the pc past the byte after
UnknownInstruction and unchanged otherwise, everything else as at the start of the step. The premise, no error context before
the step, is part of the invariant of a Running core. -/
def Obligations.FatalErrorsArePrecise : Prop :=
  ∀ (s t : State) (e : ErrInfo), s.run = .running → s.errinfo = none → step s = .next t → t.errinfo = some e →
    t = { s with
      pc := (match e with | .unknownInstruction _ _ => s.pc + 1 | _ => s.pc)
      run := .halted
      exit := (match e with
        | .unknownInstruction _ _ => .unknownInstruction
        | .unsupportedOperation _ => .unsupportedOperation
        | .outOfRange _ => .outOfRange
        | .invalidRegister _ _ => .invalidRegister)
      errinfo := some e }

/-- R145: the numerals of the exit signals: zero for a clean halt, non-zero and distinct for the errors. -/
def Obligations.ExitSignalCodes : Prop :=
  ExitSignal.ok.code = 0 ∧ ExitSignal.unknownInstruction.code = 1 ∧ ExitSignal.unsupportedOperation.code = 2 ∧
  ExitSignal.outOfRange.code = 3 ∧ ExitSignal.invalidRegister.code = 4 ∧
  (∀ e f : ExitSignal, e.code = f.code → e = f) ∧ (∀ e : ErrInfo, e.signal.code ≠ 0)

/-- R89: Halted is absorbing: no number of steps changes anything. -/
def Obligations.HaltedIsAbsorbing : Prop :=
  ∀ (k : Nat) (s : State), s.run = .halted → Sys2Proof.core.run k s = .next s

/-- R88, R89, R147: every step of every state answers a next state, and so does every number of steps. R88 says that a Running
core never waits; that a fatal error is a next state, that a Halted core answers the same state, and that no step therefore
faults or refuses, is the model's form (log entry 10, DEDUCED from R147 and R89). -/
def Obligations.EveryStepAnswers : Prop :=
  (∀ s : State, ∃ t, step s = .next t) ∧ ∀ (k : Nat) (s : State), ∃ t, Sys2Proof.core.run k s = .next t

/-- R23: a Running core becomes Halted in exactly two ways, HLT or a fatal error, and a step never makes a Halted core Running. -/
def Obligations.HaltOnlyByHltOrError : Prop :=
  ∀ s t : State, step s = .next t →
    (s.run = .running → t.run = .halted → (s.fetch = .ok .hlt ∧ t.HaltedCleanly) ∨ ∃ e, t.HaltedBy e) ∧
    (s.run = .halted → t.run = .halted)

/-- R143, R115: the ALU called with a selector it does not implement raises UnsupportedOperation with the selector and answers no
register and no flag; no step raises it: it is recorded after a step only if it was before (the spec marks this unreachability
as derived, R115). That a selector is 4 bits, and that `other` of 0, 1, 2 or 7 is unsupported too, is the model's choice
(log entry 12). -/
def Obligations.UnsupportedOperationUnreachable : Prop :=
  (∀ (order : CmpOrder) (k : BitVec 4) (ra rb : Fin 8) (x : Regs) (fl : Flags),
    aluApply order (.other k) ra rb x fl = .error (.unsupportedOperation k)) ∧
  (∀ (s t : State) (k : BitVec 4), step s = .next t → t.errinfo = some (.unsupportedOperation k) →
    s.errinfo = some (.unsupportedOperation k))

/-- R27, R178: the output trace only grows, by at most one byte a step, and only in a PRN, whose register's value it is. -/
def Obligations.OutputGrowsOnlyByPrn : Prop :=
  ∀ s t : State, step s = .next t →
    t.out = s.out ∨ ∃ (r : Byte) (i : Fin 8), s.fetch = .ok (.prn r) ∧ r.toNat = i.val ∧ t.out = s.out ++ [s.reg i]

/-! ### Headlines -/

/-- Every step keeps the invariant: memory canonical and within its size, the pc at most `PC_MAX` (R18), at most one flag set
(R20), the exit signal and the error context consistent and true of the state (R141 to R148), no UnsupportedOperation (R143);
the reset event with any register values keeps it too. -/
def Obligations.StepKeepsInvariant : Prop :=
  (∀ s t : State, s.Inv → step s = .next t → t.Inv) ∧
  (∀ (s t : State) (e : Event), s.Inv → s.onEvent e = .next t → t.Inv)

/-- R121, R21: no program can observe `CMP_ORDER` through its control flow, its registers, its output or how it ends: two
machines that differ only in it and in Less and Greater stay so for any number of steps. -/
def Obligations.ProgramsCannotSeeCompareOrder : Prop :=
  ∀ (k : Nat) (s s' t : State), s.SameToPrograms s' → Sys2Proof.core.run k s = .next t →
    ∃ t', Sys2Proof.core.run k s' = .next t' ∧ t.SameToPrograms t' ∧
      t'.out = t.out ∧ t'.pc = t.pc ∧ t'.x = t.x ∧ t'.run = t.run ∧ t'.exit = t.exit ∧ t'.errinfo = t.errinfo
end

