-- ==== Sys2Proof/Laws/Decode.lean ====
section
/-!
SUPPORT. The dispatcher table as a lookup: what `decodeOpcode` and `decode` answer when they answer.
-/

namespace Sys2Proof

/-- The dispatcher table holds exactly the rows in force. -/
theorem Config.mem_rows (cfg : Config) (r : Row) : r ∈ cfg.rows ↔ r.inForce cfg = true := by
  cases r <;> simp [Config.rows, Row.all]

/-- A row the lookup answers is in force and has the opcode looked up. -/
theorem decodeOpcode_some {cfg : Config} {b : Byte} {r : Row} (h : decodeOpcode cfg b = some r) :
    r.inForce cfg = true ∧ cfg.opcode r = b := by
  refine ⟨(cfg.mem_rows r).1 (List.mem_of_find?_eq_some h), ?_⟩
  simpa using List.find?_some h

/-- The lookup answers none exactly when no row in force has that opcode. -/
theorem decodeOpcode_none {cfg : Config} {b : Byte} :
    decodeOpcode cfg b = none ↔ ∀ r : Row, r.inForce cfg = true → cfg.opcode r ≠ b := by
  simp [decodeOpcode, Config.mem_rows]

/-- The instruction built for a row belongs to that row. -/
@[simp] theorem Row.instr_row (r : Row) (operands : List Byte) : (r.instr operands).row = r := by
  cases r <;> rfl

/-- What a decode that succeeds read: the opcode of a row in force, its operand bytes, and the rest. -/
theorem decode_ok {cfg : Config} {bytes rest : List Byte} {i : Instr} (h : decode cfg bytes = .ok (i, rest)) :
    ∃ op tail row, bytes = op :: tail ∧ decodeOpcode cfg op = some row ∧ row.operandCount ≤ tail.length ∧
      i = row.instr (tail.take row.operandCount) ∧ rest = tail.drop row.operandCount := by
  cases bytes with
  | nil => cases h
  | cons op tail =>
    rw [decode] at h
    split at h
    · cases h
    · rename_i row hrow
      split at h
      · cases h
      · rename_i hlen
        cases h
        exact ⟨op, tail, row, rfl, hrow, by omega, rfl, rfl⟩

end Sys2Proof
end

