-- ==== Sys2Proof/Laws/Memory.lean ====
section
/-!
SUPPORT. Memory: what a read gives after a write, and that every memory operation keeps the canonical form.
-/

namespace Sys2Proof.Machine

/-- Reading an address below every listed one gives `MEM_FILL`. -/
theorem Memory.read_of_lt_all : ∀ {m : Memory} {a : Nat}, (∀ c ∈ m, a < c.1) → m.read a = memFill
  | [], _, _ => rfl
  | (b, w) :: m, a, h => by
    have hb : a < b := h (b, w) (by simp)
    rw [Memory.read, if_neg (by omega)]
    exact Memory.read_of_lt_all fun c hc => h c (by simp [hc])

/-- Every entry of a written memory is the written one or an old one. -/
theorem Memory.mem_write : ∀ {m : Memory} {a : Nat} {v : Byte} {c : Host.Cell},
    c ∈ m.write a v → c = (a, v) ∨ c ∈ m
  | [], a, v, c, h => by
    rw [Memory.write] at h
    split at h <;> simp_all
  | (b, w) :: m, a, v, c, h => by
    rw [Memory.write] at h
    split at h
    · split at h <;> simp_all
    · split at h
      · split at h
        · simp [h]
        · rcases List.mem_cons.1 h with h | h <;> simp_all
      · rcases List.mem_cons.1 h with rfl | h
        · simp
        · rcases Memory.mem_write h with h | h <;> simp [h]

/-- A write keeps the canonical form. -/
theorem Memory.write_wf : ∀ {m : Memory} (a : Nat) (v : Byte), m.wf → (m.write a v).wf
  | [], a, v, _ => by
    rw [Memory.write]
    split <;> simp_all [Memory.wf]
  | (b, w) :: m, a, v, ⟨hs, hv⟩ => by
    have ht : Memory.wf m := ⟨(List.pairwise_cons.1 hs).2, fun c hc => hv c (by simp [hc])⟩
    have hlow := (List.pairwise_cons.1 hs).1
    rw [Memory.write]
    split
    · rename_i hab
      split
      · exact ⟨hs, hv⟩
      · rename_i hne
        refine ⟨List.pairwise_cons.2 ⟨fun c hc => ?_, hs⟩, fun c hc => ?_⟩
        · rcases List.mem_cons.1 hc with rfl | hc
          · exact hab
          · exact Nat.lt_trans hab (hlow c hc)
        · rcases List.mem_cons.1 hc with rfl | hc
          · exact hne
          · exact hv c hc
    · split
      · rename_i hab
        subst hab
        split
        · exact ht
        · rename_i hne
          refine ⟨List.pairwise_cons.2 ⟨hlow, ht.1⟩, fun c hc => ?_⟩
          rcases List.mem_cons.1 hc with rfl | hc
          · exact hne
          · exact ht.2 c hc
      · rename_i hlt hne
        have ih := Memory.write_wf a v ht
        refine ⟨List.pairwise_cons.2 ⟨fun c hc => ?_, ih.1⟩, fun c hc => ?_⟩
        · rcases Memory.mem_write hc with rfl | hc
          · show b < a
            omega
          · exact hlow c hc
        · rcases List.mem_cons.1 hc with rfl | hc
          · exact hv _ (by simp)
          · exact ih.2 c hc

/-- A read of the address written gives the byte written. -/
theorem Memory.read_write_same : ∀ {m : Memory} (a : Nat) (v : Byte), m.wf → (m.write a v).read a = v
  | [], a, v, _ => by
    rw [Memory.write]
    split <;> simp_all [Memory.read]
  | (b, w) :: m, a, v, ⟨hs, hv⟩ => by
    have ht : Memory.wf m := ⟨(List.pairwise_cons.1 hs).2, fun c hc => hv c (by simp [hc])⟩
    have hlow := (List.pairwise_cons.1 hs).1
    rw [Memory.write]
    split
    · rename_i hab
      split
      · rename_i hf
        subst hf
        refine Memory.read_of_lt_all fun c hc => ?_
        rcases List.mem_cons.1 hc with rfl | hc
        · exact hab
        · exact Nat.lt_trans hab (hlow c hc)
      · simp [Memory.read]
    · split
      · rename_i hab
        subst hab
        split
        · rename_i hf
          subst hf
          exact Memory.read_of_lt_all hlow
        · simp [Memory.read]
      · rename_i hne
        rw [Memory.read, if_neg hne]
        exact Memory.read_write_same a v ht

/-- A read of any other address gives what it gave before the write. -/
theorem Memory.read_write_other : ∀ {m : Memory} (a c : Nat) (v : Byte), m.wf → c ≠ a → (m.write a v).read c = m.read c
  | [], a, c, v, _, hc => by
    rw [Memory.write]
    split <;> simp_all [Memory.read]
  | (b, w) :: m, a, c, v, ⟨hs, hv⟩, hc => by
    have ht : Memory.wf m := ⟨(List.pairwise_cons.1 hs).2, fun c hc => hv c (by simp [hc])⟩
    rw [Memory.write]
    split
    · split
      · rfl
      · rw [Memory.read, if_neg hc]
    · split
      · rename_i hab
        subst hab
        split
        · rw [Memory.read, if_neg hc]
        · rw [Memory.read, if_neg hc, Memory.read, if_neg hc]
      · rw [Memory.read, Memory.read, Memory.read_write_other a c v ht hc]

/-- What a `memWrite` that succeeds did. -/
theorem State.memWrite_ok {s t : State} {a : Nat} {v : Byte} (h : s.memWrite a v = .ok t) :
    a < s.cfg.memSize ∧ t = { s with mem := s.mem.write a v } := by
  unfold State.memWrite at h
  split at h
  · rename_i hlt
    exact ⟨hlt, by cases h; rfl⟩
  · cases h

/-- The operation `memWrite` keeps the canonical form. -/
theorem State.memWrite_wf {s t : State} {a : Nat} {v : Byte} (h : s.memWrite a v = .ok t) (hw : s.mem.wf) : t.mem.wf := by
  obtain ⟨-, rfl⟩ := State.memWrite_ok h
  exact Memory.write_wf a v hw

/-- The operation `load` keeps the canonical form. -/
theorem State.load_wf : ∀ {bs : List Byte} {s t : State} {a : Nat}, s.load a bs = .ok t → s.mem.wf → t.mem.wf
  | [], _, _, _, h, hw => by cases h; exact hw
  | b :: bs, s, t, a, h, hw => by
    rw [State.load] at h
    split at h
    · cases h
    · rename_i u hu
      exact State.load_wf h (State.memWrite_wf hu hw)

/-- The operation `putBytes` keeps the canonical form. -/
theorem State.putBytes_wf : ∀ (bs : List Byte) {s : State} (a : Nat), s.mem.wf → (s.putBytes a bs).mem.wf
  | [], _, _, hw => hw
  | b :: bs, s, a, hw => by
    rw [State.putBytes]
    split
    · exact hw
    · rename_i t ht
      exact State.putBytes_wf bs (a + 1) (State.memWrite_wf ht hw)

/-- The memory of the state after reset is in canonical form. -/
theorem State.reset_mem_wf : State.reset.mem.wf := by decide

end Sys2Proof.Machine
end

