-- ==== Sys2Proof/Laws/State.lean ====
section
/-!
SUPPORT. Beside State: one lemma per field per update, so that no proof unfolds a record update.
-/

namespace Sys2Proof.Machine

variable (s : State)

@[simp] theorem State.writeReg_x (i : Fin 8) (v : Int) : (s.writeReg i v).x = Regs.put s.x i v := rfl
@[simp] theorem State.writeReg_pc (i : Fin 8) (v : Int) : (s.writeReg i v).pc = s.pc := rfl
@[simp] theorem State.writeReg_fl (i : Fin 8) (v : Int) : (s.writeReg i v).fl = s.fl := rfl
@[simp] theorem State.writeReg_run (i : Fin 8) (v : Int) : (s.writeReg i v).run = s.run := rfl
@[simp] theorem State.writeReg_exit (i : Fin 8) (v : Int) : (s.writeReg i v).exit = s.exit := rfl
@[simp] theorem State.writeReg_errinfo (i : Fin 8) (v : Int) : (s.writeReg i v).errinfo = s.errinfo := rfl
@[simp] theorem State.writeReg_mem (i : Fin 8) (v : Int) : (s.writeReg i v).mem = s.mem := rfl
@[simp] theorem State.writeReg_out (i : Fin 8) (v : Int) : (s.writeReg i v).out = s.out := rfl
@[simp] theorem State.writeReg_cfg (i : Fin 8) (v : Int) : (s.writeReg i v).cfg = s.cfg := rfl

@[simp] theorem State.setPc_x (t : Nat) : (s.setPc t).x = s.x := rfl
@[simp] theorem State.setPc_pc (t : Nat) : (s.setPc t).pc = t := rfl
@[simp] theorem State.setPc_fl (t : Nat) : (s.setPc t).fl = s.fl := rfl
@[simp] theorem State.setPc_run (t : Nat) : (s.setPc t).run = s.run := rfl
@[simp] theorem State.setPc_exit (t : Nat) : (s.setPc t).exit = s.exit := rfl
@[simp] theorem State.setPc_errinfo (t : Nat) : (s.setPc t).errinfo = s.errinfo := rfl
@[simp] theorem State.setPc_mem (t : Nat) : (s.setPc t).mem = s.mem := rfl
@[simp] theorem State.setPc_out (t : Nat) : (s.setPc t).out = s.out := rfl
@[simp] theorem State.setPc_cfg (t : Nat) : (s.setPc t).cfg = s.cfg := rfl

@[simp] theorem State.advance_x (row : Row) : (s.advance row).x = s.x := rfl
@[simp] theorem State.advance_pc (row : Row) : (s.advance row).pc = s.pc + row.width := rfl
@[simp] theorem State.advance_fl (row : Row) : (s.advance row).fl = s.fl := rfl
@[simp] theorem State.advance_run (row : Row) : (s.advance row).run = s.run := rfl
@[simp] theorem State.advance_exit (row : Row) : (s.advance row).exit = s.exit := rfl
@[simp] theorem State.advance_errinfo (row : Row) : (s.advance row).errinfo = s.errinfo := rfl
@[simp] theorem State.advance_mem (row : Row) : (s.advance row).mem = s.mem := rfl
@[simp] theorem State.advance_out (row : Row) : (s.advance row).out = s.out := rfl
@[simp] theorem State.advance_cfg (row : Row) : (s.advance row).cfg = s.cfg := rfl

@[simp] theorem State.setFlags_x (fl : Flags) : (s.setFlags fl).x = s.x := rfl
@[simp] theorem State.setFlags_pc (fl : Flags) : (s.setFlags fl).pc = s.pc := rfl
@[simp] theorem State.setFlags_fl (fl : Flags) : (s.setFlags fl).fl = fl := rfl
@[simp] theorem State.setFlags_run (fl : Flags) : (s.setFlags fl).run = s.run := rfl
@[simp] theorem State.setFlags_exit (fl : Flags) : (s.setFlags fl).exit = s.exit := rfl
@[simp] theorem State.setFlags_errinfo (fl : Flags) : (s.setFlags fl).errinfo = s.errinfo := rfl
@[simp] theorem State.setFlags_mem (fl : Flags) : (s.setFlags fl).mem = s.mem := rfl
@[simp] theorem State.setFlags_out (fl : Flags) : (s.setFlags fl).out = s.out := rfl
@[simp] theorem State.setFlags_cfg (fl : Flags) : (s.setFlags fl).cfg = s.cfg := rfl

@[simp] theorem State.emit_x (v : Byte) : (s.emit v).x = s.x := rfl
@[simp] theorem State.emit_pc (v : Byte) : (s.emit v).pc = s.pc := rfl
@[simp] theorem State.emit_fl (v : Byte) : (s.emit v).fl = s.fl := rfl
@[simp] theorem State.emit_run (v : Byte) : (s.emit v).run = s.run := rfl
@[simp] theorem State.emit_exit (v : Byte) : (s.emit v).exit = s.exit := rfl
@[simp] theorem State.emit_errinfo (v : Byte) : (s.emit v).errinfo = s.errinfo := rfl
@[simp] theorem State.emit_mem (v : Byte) : (s.emit v).mem = s.mem := rfl
@[simp] theorem State.emit_out (v : Byte) : (s.emit v).out = s.out ++ [v] := rfl
@[simp] theorem State.emit_cfg (v : Byte) : (s.emit v).cfg = s.cfg := rfl

@[simp] theorem State.raise_x (e : ErrInfo) : (s.raise e).x = s.x := rfl
@[simp] theorem State.raise_pc (e : ErrInfo) : (s.raise e).pc = e.pcAfter s.pc := rfl
@[simp] theorem State.raise_fl (e : ErrInfo) : (s.raise e).fl = s.fl := rfl
@[simp] theorem State.raise_run (e : ErrInfo) : (s.raise e).run = .halted := rfl
@[simp] theorem State.raise_exit (e : ErrInfo) : (s.raise e).exit = e.signal := rfl
@[simp] theorem State.raise_errinfo (e : ErrInfo) : (s.raise e).errinfo = some e := rfl
@[simp] theorem State.raise_mem (e : ErrInfo) : (s.raise e).mem = s.mem := rfl
@[simp] theorem State.raise_out (e : ErrInfo) : (s.raise e).out = s.out := rfl
@[simp] theorem State.raise_cfg (e : ErrInfo) : (s.raise e).cfg = s.cfg := rfl

@[simp] theorem State.haltClean_x : (s.haltClean).x = s.x := rfl
@[simp] theorem State.haltClean_pc : (s.haltClean).pc = s.pc := rfl
@[simp] theorem State.haltClean_fl : (s.haltClean).fl = s.fl := rfl
@[simp] theorem State.haltClean_run : (s.haltClean).run = .halted := rfl
@[simp] theorem State.haltClean_exit : (s.haltClean).exit = .ok := rfl
@[simp] theorem State.haltClean_errinfo : (s.haltClean).errinfo = none := rfl
@[simp] theorem State.haltClean_mem : (s.haltClean).mem = s.mem := rfl
@[simp] theorem State.haltClean_out : (s.haltClean).out = s.out := rfl
@[simp] theorem State.haltClean_cfg : (s.haltClean).cfg = s.cfg := rfl

@[simp] theorem State.afterReset_x (cfg : Config) (mem : Memory) (regReset : Regs) :
    (State.afterReset cfg mem regReset).x = regReset := rfl
@[simp] theorem State.afterReset_pc (cfg : Config) (mem : Memory) (regReset : Regs) :
    (State.afterReset cfg mem regReset).pc = 0 := rfl
@[simp] theorem State.afterReset_fl (cfg : Config) (mem : Memory) (regReset : Regs) :
    (State.afterReset cfg mem regReset).fl = ⟨false, false, false⟩ := rfl
@[simp] theorem State.afterReset_run (cfg : Config) (mem : Memory) (regReset : Regs) :
    (State.afterReset cfg mem regReset).run = .running := rfl
@[simp] theorem State.afterReset_exit (cfg : Config) (mem : Memory) (regReset : Regs) :
    (State.afterReset cfg mem regReset).exit = .ok := rfl
@[simp] theorem State.afterReset_errinfo (cfg : Config) (mem : Memory) (regReset : Regs) :
    (State.afterReset cfg mem regReset).errinfo = none := rfl
@[simp] theorem State.afterReset_mem (cfg : Config) (mem : Memory) (regReset : Regs) :
    (State.afterReset cfg mem regReset).mem = mem := rfl
@[simp] theorem State.afterReset_out (cfg : Config) (mem : Memory) (regReset : Regs) :
    (State.afterReset cfg mem regReset).out = [] := rfl
@[simp] theorem State.afterReset_cfg (cfg : Config) (mem : Memory) (regReset : Regs) :
    (State.afterReset cfg mem regReset).cfg = cfg := rfl

/-- A register read after a write of the same register gives the value modulo 256. -/
@[simp] theorem State.reg_writeReg_same (i : Fin 8) (v : Int) : (s.writeReg i v).reg i = u8 v := by
  simp [State.reg, Regs.put]

/-- A register read after a write of another register gives what it gave. -/
theorem State.reg_writeReg_other {i j : Fin 8} (v : Int) (h : i ≠ j) : (s.writeReg i v).reg j = s.reg j := by
  have : i.val ≠ j.val := fun e => h (Fin.ext e)
  simp [State.reg, Regs.put, this]

/-- Only the register file decides what `reg` reads. -/
theorem State.reg_congr {s t : State} (h : s.x = t.x) (i : Fin 8) : s.reg i = t.reg i := by
  simp [State.reg, h]

/-- A byte is itself modulo 256. -/
@[simp] theorem u8_toNat (b : Byte) : u8 (b.toNat : Int) = b := by
  simp [u8]

end Sys2Proof.Machine
end

