-- ==== Sys2Proof/Laws/Ops.lean ====
section
/-!
SUPPORT. One lemma per shared operation, saying once everything it can do: memory reads, operand validation, the ALU rows, the
jumps, the fetch, the step.
-/

namespace Sys2Proof.Machine

/-! ### Memory reads -/

/-- A read in range answers the byte. -/
theorem State.memRead_of_lt {s : State} {a : Nat} (h : a < s.cfg.memSize) : s.memRead a = .ok (s.mem.read a) :=
  if_pos h

/-- A read out of range is OutOfRange. -/
theorem State.memRead_of_le {s : State} {a : Nat} (h : s.cfg.memSize ≤ a) : s.memRead a = .error (.outOfRange a) :=
  if_neg (Nat.not_lt.2 h)

/-- The two things a read can do. -/
theorem State.memRead_cases (s : State) (a : Nat) :
    (a < s.cfg.memSize ∧ s.memRead a = .ok (s.mem.read a)) ∨ (s.cfg.memSize ≤ a ∧ s.memRead a = .error (.outOfRange a)) := by
  rcases Nat.lt_or_ge a s.cfg.memSize with h | h
  · exact .inl ⟨h, State.memRead_of_lt h⟩
  · exact .inr ⟨h, State.memRead_of_le h⟩

/-- Reading `n` bytes that are all in range answers them in order. -/
theorem State.readBytes_of_le {s : State} : ∀ {n a : Nat}, a + n ≤ s.cfg.memSize →
    s.readBytes a n = .ok ((List.range n).map fun k => s.mem.read (a + k))
  | 0, _, _ => rfl
  | n + 1, a, h => by
    rw [State.readBytes, State.memRead_of_lt (by omega), State.readBytes_of_le (by omega)]
    simp [List.range_succ_eq_map, Nat.add_assoc, Nat.add_comm 1]

/-- Reading bytes of which some are out of range stops at the first that is. -/
theorem State.readBytes_of_lt {s : State} : ∀ {n a k : Nat}, k < n → a + k ≥ s.cfg.memSize → (∀ j < k, a + j < s.cfg.memSize) →
    s.readBytes a n = .error (.outOfRange (a + k))
  | n + 1, a, 0, _, ha, _ => by
    rw [State.readBytes, State.memRead_of_le (by omega)]
    rfl
  | n + 1, a, k + 1, hk, ha, hj => by
    have h0 := hj 0 (by omega)
    rw [State.readBytes, State.memRead_of_lt (by omega),
      State.readBytes_of_lt (k := k) (by omega) (by omega) fun j h => by have := hj (j + 1) (by omega); omega]
    simp [Nat.add_comm 1, Nat.add_assoc]

/-- A failed read of bytes stopped at the first address out of range. -/
theorem State.readBytes_error {s : State} : ∀ {n a : Nat} {e : ErrInfo}, s.readBytes a n = .error e →
    ∃ k < n, e = .outOfRange (a + k) ∧ s.cfg.memSize ≤ a + k ∧ ∀ j < k, a + j < s.cfg.memSize
  | 0, _, _, h => by cases h
  | n + 1, a, e, h => by
    rw [State.readBytes] at h
    rcases State.memRead_cases s a with ⟨hlt, hr⟩ | ⟨hle, hr⟩
    · rw [hr] at h
      cases hb : s.readBytes (a + 1) n with
      | ok bs => simp [hb] at h
      | error e' =>
        simp only [hb, Except.error.injEq] at h
        subst h
        obtain ⟨k, hk, rfl, hm, hj⟩ := State.readBytes_error hb
        refine ⟨k + 1, by omega, by simp [Nat.add_comm 1, Nat.add_assoc], by omega, fun j h => ?_⟩
        cases j with
        | zero => exact hlt
        | succ j => have := hj j (by omega); omega
    · simp only [hr, Except.error.injEq] at h
      subst h
      exact ⟨0, by omega, rfl, hle, fun j h => by omega⟩

/-- A read of bytes that succeeds had all of them in range. -/
theorem State.readBytes_ok {s : State} : ∀ {n a : Nat} {bs : List Byte}, s.readBytes a n = .ok bs → n = 0 ∨ a + n ≤ s.cfg.memSize
  | 0, _, _, _ => .inl rfl
  | n + 1, a, bs, h => by
    refine .inr ?_
    rw [State.readBytes] at h
    rcases State.memRead_cases s a with ⟨hlt, hr⟩ | ⟨hle, hr⟩
    · rw [hr] at h
      cases hb : s.readBytes (a + 1) n with
      | ok bs => rcases State.readBytes_ok hb with h0 | h0 <;> omega
      | error e => simp [hb] at h
    · simp [hr] at h

/-! ### Operands -/

/-- The register a byte in 0..7 names. -/
theorem regIndex_of_eq {r : Byte} {i : Fin 8} (h : r.toNat = i.val) : regIndex r = some i := by
  simp [regIndex, h]

/-- A byte above 7 names no register. -/
theorem regIndex_of_le {r : Byte} (h : 8 ≤ r.toNat) : regIndex r = none := by
  simp [regIndex, Nat.not_lt.2 h]

/-- A byte names a register or it does not. -/
theorem regIndex_cases (r : Byte) : (∃ i : Fin 8, r.toNat = i.val ∧ regIndex r = some i) ∨ (8 ≤ r.toNat ∧ regIndex r = none) := by
  rcases Nat.lt_or_ge r.toNat 8 with h | h
  · exact .inl ⟨⟨r.toNat, h⟩, rfl, regIndex_of_eq rfl⟩
  · exact .inr ⟨h, regIndex_of_le h⟩

/-- Validation of an operand that names a register goes on with it. -/
theorem withReg_of_eq {s : State} {r : Byte} {i : Fin 8} (h : r.toNat = i.val) (run : Fin 8 → Result) :
    withReg s r run = run i := by
  simp [withReg, regIndex_of_eq h]

/-- Validation of any other operand is InvalidRegister. -/
theorem withReg_of_le {s : State} {r : Byte} (h : 8 ≤ r.toNat) (run : Fin 8 → Result) :
    withReg s r run = .next (s.raise (.invalidRegister r s.pc)) := by
  simp [withReg, regIndex_of_le h]

/-- Everything the validation of one operand can do. -/
theorem withReg_cases (s : State) (r : Byte) (run : Fin 8 → Result) :
    (∃ i : Fin 8, r.toNat = i.val ∧ withReg s r run = run i) ∨
      (8 ≤ r.toNat ∧ withReg s r run = .next (s.raise (.invalidRegister r s.pc))) := by
  rcases regIndex_cases r with ⟨i, h, -⟩ | ⟨h, -⟩
  · exact .inl ⟨i, h, withReg_of_eq h run⟩
  · exact .inr ⟨h, withReg_of_le h run⟩

/-- Everything the validation of two operands can do: the first bad one is reported. -/
theorem withRegs_cases (s : State) (ra rb : Byte) (run : Fin 8 → Fin 8 → Result) :
    (∃ i j : Fin 8, ra.toNat = i.val ∧ rb.toNat = j.val ∧ withRegs s ra rb run = run i j) ∨
      (8 ≤ ra.toNat ∧ withRegs s ra rb run = .next (s.raise (.invalidRegister ra s.pc))) ∨
      (ra.toNat < 8 ∧ 8 ≤ rb.toNat ∧ withRegs s ra rb run = .next (s.raise (.invalidRegister rb s.pc))) := by
  rcases withReg_cases s ra fun i => withReg s rb fun j => run i j with ⟨i, hi, h⟩ | ⟨hi, h⟩
  · rcases withReg_cases s rb fun j => run i j with ⟨j, hj, h'⟩ | ⟨hj, h'⟩
    · exact .inl ⟨i, j, hi, hj, h.trans h'⟩
    · exact .inr (.inr ⟨by omega, hj, h.trans h'⟩)
  · exact .inr (.inl ⟨hi, h⟩)

/-- Everything a jump can do. -/
theorem jumpIf_cases (taken : Bool) (row : Row) (reg : Byte) (s : State) :
    (∃ i : Fin 8, reg.toNat = i.val ∧
        jumpIf taken row reg s = .next (if taken then s.setPc (s.reg i).toNat else s.advance row)) ∨
      (8 ≤ reg.toNat ∧ jumpIf taken row reg s = .next (s.raise (.invalidRegister reg s.pc))) :=
  withReg_cases s reg _

/-- Everything an ALU row can do with a selector the ALU implements. -/
theorem runAlu_cases (op : AluOp) (row : Row) (ra rb : Byte) (s : State) (hop : ∀ k, op ≠ .other k) :
    (∃ (i j : Fin 8) (x : Regs) (fl : Flags), ra.toNat = i.val ∧ rb.toNat = j.val ∧
        aluApply s.cfg.cmpOrder op i j s.x s.fl = .ok (x, fl) ∧
        runAlu op row ra rb s = .next ({ s with x := x, fl := fl }.advance row)) ∨
      (8 ≤ ra.toNat ∧ runAlu op row ra rb s = .next (s.raise (.invalidRegister ra s.pc))) ∨
      (ra.toNat < 8 ∧ 8 ≤ rb.toNat ∧ runAlu op row ra rb s = .next (s.raise (.invalidRegister rb s.pc))) := by
  rw [runAlu]
  rcases withRegs_cases s ra rb _ with ⟨i, j, hi, hj, h⟩ | h | h
  · refine .inl ⟨i, j, ?_⟩
    rw [h]
    cases op with
    | other k => exact absurd rfl (hop k)
    | _ => exact ⟨_, _, hi, hj, rfl, rfl⟩
  · exact .inr (.inl h)
  · exact .inr (.inr h)

/-! ### Fetch and step -/

/-- What a fetch that succeeds read. -/
theorem State.fetch_ok {s : State} {i : Instr} (h : s.fetch = .ok i) :
    ∃ row : Row, decodeOpcode s.cfg (s.mem.read s.pc) = some row ∧ s.pc + row.width ≤ s.cfg.memSize ∧
      i = row.instr ((List.range row.operandCount).map fun k => s.mem.read (s.pc + 1 + k)) := by
  rw [State.fetch] at h
  rcases State.memRead_cases s s.pc with ⟨hlt, hr⟩ | ⟨hle, hr⟩
  · rw [hr] at h
    cases hd : decodeOpcode s.cfg (s.mem.read s.pc) with
    | none => simp [hd] at h
    | some row =>
      refine ⟨row, rfl, ?_⟩
      simp only [hd] at h
      cases hb : s.readBytes (s.pc + 1) row.operandCount with
      | error e => simp [hb] at h
      | ok bs =>
        have hle : s.pc + row.width ≤ s.cfg.memSize := by
          rcases State.readBytes_ok hb with h0 | h0 <;> simp only [Row.width] <;> omega
        refine ⟨hle, ?_⟩
        rw [State.readBytes_of_le (by simp only [Row.width] at hle; omega)] at h
        exact (Except.ok.inj h).symm
  · simp [hr] at h

/-- Everything a fetch can fail with, in the order of its checks. -/
theorem State.fetch_error {s : State} {e : ErrInfo} (h : s.fetch = .error e) :
    (s.cfg.memSize ≤ s.pc ∧ e = .outOfRange s.pc) ∨
    (s.pc < s.cfg.memSize ∧ decodeOpcode s.cfg (s.mem.read s.pc) = none ∧ e = .unknownInstruction (s.mem.read s.pc) s.pc) ∨
    (s.pc < s.cfg.memSize ∧ ∃ row k, decodeOpcode s.cfg (s.mem.read s.pc) = some row ∧ k < row.operandCount ∧
      s.cfg.memSize ≤ s.pc + 1 + k ∧ (∀ j < k, s.pc + 1 + j < s.cfg.memSize) ∧ e = .outOfRange (s.pc + 1 + k)) := by
  rw [State.fetch] at h
  rcases State.memRead_cases s s.pc with ⟨hlt, hr⟩ | ⟨hle, hr⟩
  · rw [hr] at h
    cases hd : decodeOpcode s.cfg (s.mem.read s.pc) with
    | none =>
      simp only [hd, Except.error.injEq] at h
      exact .inr (.inl ⟨hlt, rfl, h.symm⟩)
    | some row =>
      simp only [hd] at h
      cases hb : s.readBytes (s.pc + 1) row.operandCount with
      | ok bs => simp [hb] at h
      | error e' =>
        simp only [hb, Except.error.injEq] at h
        subst h
        obtain ⟨k, hk, he, hm, hj⟩ := State.readBytes_error hb
        exact .inr (.inr ⟨hlt, row, k, rfl, hk, hm, hj, he⟩)
  · simp only [hr, Except.error.injEq] at h
    exact .inl ⟨hle, h.symm⟩

/-- Everything a step can do. -/
theorem step_cases {s t : State} (h : step s = .next t) :
    (s.run = .halted ∧ t = s) ∨
    (s.run = .running ∧ ∃ e, s.fetch = .error e ∧ t = s.raise e) ∨
    (s.run = .running ∧ ∃ i, s.fetch = .ok i ∧ exec i s = .next t) := by
  rw [step] at h
  cases hr : s.run with
  | halted =>
    simp only [hr, Host.Outcome.next.injEq] at h
    exact .inl ⟨rfl, h.symm⟩
  | running =>
    simp only [hr] at h
    cases hf : s.fetch with
    | error e =>
      simp only [hf, Host.Outcome.next.injEq] at h
      exact .inr (.inl ⟨rfl, e, rfl, h.symm⟩)
    | ok i =>
      simp only [hf] at h
      exact .inr (.inr ⟨rfl, i, rfl, h⟩)

end Sys2Proof.Machine
end

