-- ==== Sys2Proof/Laws/PerInstr.lean ====
section
/-!
SUPPORT. Statements about every instruction as syntax, one lemma per constructor.
-/

namespace Sys2Proof.Laws.EncodedWidth

/-- An instruction encodes to as many bytes as its row is wide, the first of them the row's opcode byte (R60, R68, R75). -/
def Statement (i : Instr) : Prop :=
  ∀ cfg : Config, (encode cfg i).length = i.row.width ∧ (encode cfg i).head? = some (cfg.opcode i.row)

theorem hlt : Statement .hlt := fun _ => ⟨rfl, rfl⟩
theorem ldi (reg value : Byte) : Statement (.ldi reg value) := fun _ => ⟨rfl, rfl⟩
theorem prn (reg : Byte) : Statement (.prn reg) := fun _ => ⟨rfl, rfl⟩
theorem mul (regA regB : Byte) : Statement (.mul regA regB) := fun _ => ⟨rfl, rfl⟩
theorem cmp (regA regB : Byte) : Statement (.cmp regA regB) := fun _ => ⟨rfl, rfl⟩
theorem jmp (reg : Byte) : Statement (.jmp reg) := fun _ => ⟨rfl, rfl⟩
theorem jeq (reg : Byte) : Statement (.jeq reg) := fun _ => ⟨rfl, rfl⟩
theorem jne (reg : Byte) : Statement (.jne reg) := fun _ => ⟨rfl, rfl⟩
theorem add (regA regB : Byte) : Statement (.add regA regB) := fun _ => ⟨rfl, rfl⟩
theorem sub (regA regB : Byte) : Statement (.sub regA regB) := fun _ => ⟨rfl, rfl⟩

end Sys2Proof.Laws.EncodedWidth
end

