-- ==== Sys2Proof/Machine/Assembly.lean ====
section
/-!
DEFINITION. The assembly notation the spec writes instructions in (spec/30_encoding.md R71, spec/00_scope.md R8): a reading aid,
which nothing in the machine depends on.
-/

namespace Sys2Proof

/-- The mnemonic of a row (R8). -/
def Row.mnemonic : Row → String
  | .hlt => "HLT"
  | .ldi => "LDI"
  | .prn => "PRN"
  | .mul => "MUL"
  | .cmp => "CMP"
  | .jmp => "JMP"
  | .jeq => "JEQ"
  | .jne => "JNE"
  | .add => "ADD"
  | .sub => "SUB"

/-- The name of the register a register operand names, `R0` to `R7` (R71). -/
def registerName (r : Byte) : String := "R" ++ toString r.toNat

/-- The operands as they are written, in order: registers by name, LDI's value in decimal (R71). -/
def Instr.operandTexts : Instr → List String
  | .ldi reg value => [registerName reg, toString value.toNat]
  | .hlt => []
  | .prn reg => [registerName reg]
  | .mul regA regB => [registerName regA, registerName regB]
  | .cmp regA regB => [registerName regA, registerName regB]
  | .jmp reg => [registerName reg]
  | .jeq reg => [registerName reg]
  | .jne reg => [registerName reg]
  | .add regA regB => [registerName regA, registerName regB]
  | .sub regA regB => [registerName regA, registerName regB]

/-- An instruction in the notation: the mnemonic, then the operands separated by commas (R71). None where a register operand is
above 7: the notation has no name for it. -/
def Instr.assembly (i : Instr) : Option String :=
  if i.regsInRange then
    some (if i.operandTexts = [] then i.row.mnemonic else i.row.mnemonic ++ " " ++ String.intercalate ", " i.operandTexts)
  else none

end Sys2Proof
end

