-- ==== Sys2Proof/Tests/Slice0.lean ====
section
/-!
SUPPORT. The model's own tests. Expected results are the spec's: spec/95_test_vectors.md where a vector is named, the encodings
of spec/30_encoding.md otherwise. The theorems named witness_ show that the hypotheses of the statements can be met, at the
boundary values of their ranges.
-/

namespace Sys2Proof.Tests

open Sys2Proof.Machine Sys2Proof.Claims

/-! ### Well-formedness -/

theorem test_wellFormed_accepts : (Instr.ldi 7 255).wellFormed Config.default = true := by decide
/-- the check on a register operand, at the first byte it refuses (R66) -/
theorem test_wellFormed_refuses_register : (Instr.ldi 8 1).wellFormed Config.default = false := by decide
theorem test_wellFormed_refuses_second_register : (Instr.mul 1 9).wellFormed Config.default = false := by decide
/-- the check that the row is in force (R73) -/
theorem test_wellFormed_refuses_row : (Instr.add 0 1).wellFormed Config.default = false := by decide
theorem test_wellFormed_accepts_row : (Instr.add 0 1).wellFormed Config.allRows = true := by decide
/-- the check on the parameters: opcodes distinct (R63), at least one cell (R5) -/
theorem test_config_refuses_same_opcodes :
    ¬ ({ Config.default with opc := { Opc.default with jne := 0x01 } } : Config).wf := by decide
theorem test_config_refuses_no_memory : ¬ ({ Config.default with memSize := 0 } : Config).wf := by decide

/-! ### Decoding: words written out bit by bit from R61, R62, R73 -/

/-- the instruction a decode answers, if it answers -/
def decoded (cfg : Config) (bytes : List Byte) : Option Instr := (decode cfg bytes).toOption.map Prod.fst

theorem test_decode_hlt : decoded Config.default [0b00000001] = some .hlt := by decide
theorem test_decode_ldi : decoded Config.default [0b10000010, 0b00000111, 0b11111111] = some (.ldi 7 255) := by decide
theorem test_decode_prn : decoded Config.default [0b01000111, 0b00000010] = some (.prn 2) := by decide
theorem test_decode_mul : decoded Config.default [0b10100010, 0b00000001, 0b00000000] = some (.mul 1 0) := by decide
theorem test_decode_cmp : decoded Config.default [0b10100111, 0b00000011, 0b00000100] = some (.cmp 3 4) := by decide
theorem test_decode_jmp : decoded Config.default [0b01010100, 0b00000010] = some (.jmp 2) := by decide
theorem test_decode_jeq : decoded Config.default [0b01010101, 0b00000010] = some (.jeq 2) := by decide
theorem test_decode_jne : decoded Config.default [0b01010110, 0b00000010] = some (.jne 2) := by decide
theorem test_decode_add : decoded Config.allRows [0b10100000, 0b00000010, 0b00000011] = some (.add 2 3) := by decide
theorem test_decode_sub : decoded Config.allRows [0b10100001, 0b00000000, 0b00000001] = some (.sub 0 1) := by decide
/-- V-DEC-9 to V-DEC-13 -/
theorem test_decode_unknown :
    [0x00, 0xFF, 0xA0, 0xA1, 0x57, 0x53, 0x83, 0xA3, 0xA6, 0xA8, 0x02, 0x46, 0x48].all
      (fun b => decode Config.default [b, 0, 0] matches .error (.unknownOpcode _)) = true := by decide
/-- a missing operand is named, an operand above 7 decodes (R65) -/
theorem test_decode_short : decode Config.default [0x82, 0x00] matches .error (.missingOperand .ldi 1) := by decide
theorem test_decode_bad_register : decoded Config.default [0x47, 0x08] = some (.prn 8) := by decide
/-- R75: the bytes of the document's scenario 1 -/
theorem test_encode :
    [Instr.ldi 0 5, .mul 0 1, .prn 0, .hlt].map (encode Config.default) =
      [[0x82, 0x00, 0x05], [0xA2, 0x00, 0x01], [0x47, 0x00], [0x01]] := by decide
/-- the table's words: the opcode byte in bits 7..0, the operands above it -/
theorem test_decodeTableWord : decodeTableWord 24 0x0500_82 = some (.ldi 0 5) ∧ decodeTableWord 8 0xA0 = some (.add 0 0) ∧
    decodeTableWord 8 0x00 = none := by decide
theorem test_assembly : (Instr.ldi 0 5).assembly = some "LDI R0, 5" ∧ Instr.hlt.assembly = some "HLT" ∧
    (Instr.prn 8).assembly = none := by decide

/-! ### One step -/

/-- the default machine with the ten rows in force, its first registers, flags (L, G, E) and the bytes at the pc -/
def at_ (pc : Nat) (regs : List Byte) (fl : Flags) (bytes : List Byte) : State :=
  { (State.reset.putBytes pc bytes) with
    pc := pc, fl := fl, cfg := Config.allRows, x := Vector.ofFn fun i => regs.getD i.val 0x99 }

/-- the same machine with `n` cells -/
def small (n : Nat) (s : State) : State := { s with cfg := { s.cfg with memSize := n } }

/-- the state a step answers -/
def after (s : State) : Option State :=
  match step s with
  | .next t => some t
  | _ => none

def clear : Flags := { l := false, g := false, e := false }
def less : Flags := { l := true, g := false, e := false }
def greater : Flags := { l := false, g := true, e := false }
def equal : Flags := { l := false, g := false, e := true }

/-- V-HLT-1, V-HLT-2 -/
theorem test_hlt : (after (at_ 0 [] clear [0x01])).map (fun t => (t.pc, t.run, t.exit)) = some (1, .halted, .ok) := by decide
theorem test_hlt_last_cell :
    (after (small 1 (at_ 0 [] clear [0x01]))).map (fun t => (t.pc, t.exit)) = some (1, .ok) := by decide
/-- V-LDI-2, V-LDI-5 -/
theorem test_ldi : (after (at_ 0 [] clear [0x82, 0x07, 0xFF])).map (fun t => (t.x[7], t.pc)) = some (255, 3) := by decide
theorem test_ldi_bad : (after (at_ 0 [] clear [0x82, 0x08, 0x01])).map (fun t => (t.errinfo, t.pc)) =
    some (some (.invalidRegister 8 0), 0) := by decide
/-- V-PRN-2, V-PRN-4 -/
theorem test_prn : (after { at_ 0 [0, 0, 255] clear [0x47, 0x02] with out := [1] }).map (fun t => (t.out, t.pc)) =
    some ([1, 255], 2) := by decide
theorem test_prn_bad : (after (at_ 0 [] clear [0x47, 0x08])).map (fun t => (t.out, t.exit)) = some ([], .invalidRegister) := by
  decide
/-- V-MUL-8, V-MUL-9 -/
theorem test_mul_same : (after (at_ 0 [0, 0, 17] clear [0xA2, 0x02, 0x02])).map (fun t => t.x[2]) = some 33 := by decide
theorem test_mul_order : (after (at_ 0 [5, 3] greater [0xA2, 0x01, 0x00])).map (fun t => (t.x[1], t.x[0], t.fl)) =
    some (15, 5, greater) := by decide
/-- V-CMP-6b, V-CMP-9 in both orders -/
theorem test_cmp_values : (after (at_ 0 [9, 3] clear [0xA7, 0x01, 0x00])).map (fun t => (t.fl, t.pc)) = some (less, 3) := by decide
theorem test_cmp_orders : [CmpOrder.unsigned, .twosComplement].map (fun o =>
    (after ((at_ 0 [128, 127] equal [0xA7, 0x00, 0x01]).withOrder o)).map (·.fl)) = [some greater, some less] := by decide
/-- V-ADD-3, V-ADD-6 -/
theorem test_add : (after (at_ 0 [0, 0, 200, 100] clear [0xA0, 0x02, 0x03])).map (fun t => (t.x[2], t.pc)) = some (44, 3) := by
  decide
theorem test_add_unknown : (after { at_ 0 [] clear [0xA0, 0x00, 0x01] with cfg := Config.default }).map
    (fun t => (t.errinfo, t.pc)) = some (some (.unknownInstruction 0xA0 0), 1) := by decide
/-- V-SUB-2, V-SUB-4 -/
theorem test_sub_wraps : (after (at_ 0 [3, 5] less [0xA1, 0x00, 0x01])).map (fun t => (t.x[0], t.fl)) = some (254, less) := by
  decide
theorem test_sub_same : (after (at_ 0 [0, 0, 0, 0, 99] clear [0xA1, 0x04, 0x04])).map (fun t => t.x[4]) = some 0 := by decide
/-- V-JMP-1, V-JMP-4 -/
theorem test_jmp : (after (at_ 12 [0, 0, 19] clear [0x54, 0x02])).map (fun t => t.pc) = some 19 := by decide
theorem test_jmp_outside : (after (small 16 (at_ 3 [200] clear [0x54, 0x00]))).map (fun t => (t.pc, t.run)) =
    some (200, .running) := by decide
/-- V-JEQ-1, V-JEQ-6 -/
theorem test_jeq_taken : (after (at_ 12 [0, 0, 19] equal [0x55, 0x02])).map (fun t => t.pc) = some 19 := by decide
theorem test_jeq_bad : (after (at_ 12 [] less [0x55, 0x09])).map (fun t => (t.errinfo, t.pc)) =
    some (some (.invalidRegister 9 12), 12) := by decide
/-- V-JNE-4, V-JNE-3 -/
theorem test_jne_before_cmp : (after (at_ 12 [0, 0, 19] clear [0x56, 0x02])).map (fun t => t.pc) = some 19 := by decide
theorem test_jne_equal : (after (at_ 12 [0, 0, 19] equal [0x56, 0x02])).map (fun t => t.pc) = some 14 := by decide
/-- V-ERR-2, V-ERR-3, V-ERR-4: the priority of the errors in the last cell -/
theorem test_error_priority : [0xFF, 0x82, 0x55].map (fun b =>
    (after (small 4 (at_ 3 [] clear [b]))).map fun t => (t.errinfo, t.pc)) =
    [some (some (.unknownInstruction 0xFF 3), 4), some (some (.outOfRange 4), 3), some (some (.outOfRange 4), 3)] := by decide
/-- V-RST-2: the reset event forgets the error -/
theorem test_reset_forgets : (State.reset.raise (.outOfRange 256)).applyReset (Vector.replicate 8 0) = State.reset := by decide
/-- the first cell after reset is zero, no instruction: V-ERR-7 -/
theorem test_reset_empty_image : (after State.reset).map (fun t => (t.errinfo, t.pc)) =
    some (some (.unknownInstruction 0x00 0), 1) := by decide
/-- a table word placed for the fetch runs: LDI R0,5 and, its row put in force, ADD R0,R0 -/
theorem test_withFetchWord : (after (State.reset.withFetchWord 24 0x050082)).map (fun t => (t.x[0], t.pc)) = some (5, 3) ∧
    (after (State.reset.withFetchWord 8 0xA0)).map (fun t => (t.run, t.pc)) = some (.running, 3) := by decide
/-- R70: a comment, a blank line, a line that is no literal, a byte -/
theorem test_image_text : parseImage [['#', ' ', '1'], [], ['1', '2'],
    [' ', '1', '0', '0', '0', '0', '0', '1', '0', ' ', '#', 'L']] = some [0x82] := by decide
theorem test_image_text_short : parseImage [['1', '0', '1']] = none := by decide
/-- V-ERR-9 -/
theorem test_alu_other : (aluApply .unsigned (.other 3) 0 1 State.reset.x clear) matches .error (.unsupportedOperation 3) := by
  decide

/-! ### Witnesses: the hypotheses of the statements can be met -/

/-- EncodeThenDecode, DecodeIsTableLookup: distinct opcodes and a row in force, ADD and SUB among them -/
theorem witness_rows_in_force : Config.default.opcodesDistinct ∧ Config.allRows.opcodesDistinct ∧
    Row.all.all (Row.inForce Config.allRows) = true := by decide
/-- DecodeThenEncode: a decode that answers, with bytes left over -/
theorem witness_decode_answers : decode Config.default [0x47, 0x02, 0xFF] = .ok (.prn 2, [0xFF]) := rfl
/-- LengthFromOpcode: a known opcode with exactly its operands, and an unknown one -/
theorem witness_length : decodeOpcode Config.default 0x82 = some .ldi ∧ Row.ldi.operandCount ≤ [(0 : Byte), 0].length ∧
    decodeOpcode Config.default 0x00 = none := by decide
/-- ImageTextDenotesBytes: whitespace before and after -/
theorem witness_whitespace : ∀ c ∈ [' '] ++ ['\t'], c.isWhitespace = true := by simp
/-- ResetEventLeaves: a Halted state -/
theorem witness_halted : (State.reset.haltClean).run = .halted := rfl
/-- ResetEntryAndFlags: a reset with an instruction at address 0, and register operands at both ends of their range -/
theorem witness_reset_entry :
    (at_ 0 [] equal [0x55, 0x07]).onEvent (.reset State.reset.x) =
      .next { at_ 0 [] equal [0x55, 0x07] with x := State.reset.x, fl := clear } ∧
    decode Config.allRows ((at_ 0 [] clear [0x55, 0x07]).bytesAt 0 3) = .ok (.jeq 7, [0]) := ⟨rfl, rfl⟩
/-- HostResetState: a state with default parameters and empty memory, not itself the reset state -/
theorem witness_default_state : State.reset.haltClean.cfg = Config.default ∧ State.reset.haltClean.mem = [] := ⟨rfl, rfl⟩
/-- ResetMeetsInvariant: legal parameters with memory in use up to the last cell -/
theorem witness_memory_in_use :
    let s : State := { State.reset with mem := [(0, 0x82), (255, 0x01)] }
    s.cfg.wf ∧ s.mem.wf ∧ ∀ c ∈ s.mem, c.1 < s.cfg.memSize := by decide
/-- BootPlacesImage: an image that fills memory, one that is a byte too long, and the empty one -/
theorem witness_images : [(0x01 : Byte)].length ≤ (small 1 State.reset).cfg.memSize ∧
    (small 1 State.reset).cfg.memSize < [(0x47 : Byte), 0x00].length ∧
    State.boot Config.default State.reset.x [] = .ok State.reset ∧ 1 ≤ Config.default.memSize ∧
    decodeOpcode Config.default 0x00 = none := ⟨by decide, by decide, rfl, by decide, by decide⟩
/-- MemReadContract, MemWriteContract: the last cell, listed and not, and the first address past it, in canonical memory -/
theorem witness_memory_edges : State.reset.mem.wf ∧ 255 < State.reset.cfg.memSize ∧ State.reset.cfg.memSize ≤ 256 ∧
    (∀ v, (255, v) ∉ State.reset.mem) ∧ Memory.wf [(255, 7)] ∧ (255, 7) ∈ ([(255, 7)] : Memory) :=
  ⟨by decide, by decide, by decide, (fun _ h => nomatch h), by decide, by simp⟩
/-- CanonicalMemoryExtensional: canonical memories that read alike, one made by writes that undo one another -/
theorem witness_canonical : ((Memory.write (Memory.write [] 3 7) 3 0).wf) ∧ Memory.wf [] ∧
    ∀ a, (Memory.write (Memory.write [] 3 7) 3 0).read a = Memory.read [] a := ⟨by decide, by decide, fun _ => rfl⟩
/-- MemoryConstantInARun: two steps that answer, and both events -/
theorem witness_run : (∃ t, Sys2Proof.core.run 2 State.reset = .next t) ∧ (∃ t, State.reset.onEvent .step = .next t) ∧
    ∃ t, State.reset.onEvent (.reset State.reset.x) = .next t := ⟨⟨_, rfl⟩, ⟨_, rfl⟩, ⟨_, rfl⟩⟩
/-- RegisterAccessTable, RegisterWriteWraps, MemWriteContract, InstructionFrame, PcAfterInstruction: an instruction that answers, a register it writes,
one it neither reads nor writes, and one it reads only when it jumps -/
theorem witness_register_access : (∃ t, exec (.ldi 7 1) State.reset = .next t) ∧ regByte 7 ∈ (Instr.ldi 7 1).writes ∧
    regByte 7 ∉ (Instr.ldi 7 1).reads clear ∧ regByte 0 ∉ (Instr.ldi 7 1).writes ∧
    regByte 2 ∉ (Instr.jeq 2).reads clear ∧ regByte 2 ∈ (Instr.jeq 2).reads equal :=
  ⟨⟨_, rfl⟩, by decide, by decide, by decide, by decide, by decide⟩
theorem witness_frame_rows : (Instr.ldi 7 1).row ≠ .cmp ∧ (Instr.ldi 7 1).row ≠ .prn ∧ (Instr.ldi 7 1).row ≠ .hlt ∧
    (Instr.ldi 7 1).regsInRange = true ∧ (Instr.ldi 8 1).regsInRange = false ∧ ∃ t, exec (.ldi 8 1) State.reset = .next t :=
  ⟨by decide, by decide, by decide, by decide, by decide, ⟨_, rfl⟩⟩
/-- PcAfterInstruction: each instruction answers, with an operand at the top of its range -/
theorem witness_each_answers : ∀ i ∈ [Instr.hlt, .ldi 7 0, .prn 7, .mul 7 7, .cmp 7 7, .jmp (regByte 7), .jeq (regByte 7),
    .jne (regByte 7), .add 7 7, .sub 7 7], i.regsInRange = true ∧ ∃ t, exec i State.reset = .next t := by
  simp only [List.forall_mem_cons, List.not_mem_nil, false_imp_iff, implies_true, and_true]
  exact ⟨⟨rfl, _, rfl⟩, ⟨rfl, _, rfl⟩, ⟨rfl, _, rfl⟩, ⟨rfl, _, rfl⟩, ⟨rfl, _, rfl⟩, ⟨rfl, _, rfl⟩, ⟨rfl, _, rfl⟩,
    ⟨rfl, _, rfl⟩, ⟨rfl, _, rfl⟩, ⟨rfl, _, rfl⟩⟩
/-- OperandValidation: the first operand reported of two bad ones, the second of one, none of none -/
theorem witness_first_bad : (Instr.mul 9 8).firstBadReg = some 9 ∧ (Instr.mul 7 8).firstBadReg = some 8 ∧
    (Instr.mul 7 0).regsInRange = true := by decide
/-- the instruction statements' result clauses: a byte that names register 7, and register 0; their error clauses: byte 8, byte
255, and a good first operand before a bad second one -/
theorem witness_operands : (7 : Byte).toNat = (7 : Fin 8).val ∧ (0 : Byte).toNat = (0 : Fin 8).val ∧ 8 ≤ (8 : Byte).toNat ∧
    8 ≤ (255 : Byte).toNat ∧ (7 : Byte).toNat ≤ 7 := by decide
/-- JeqJumpsOnEqual, JneJumpsOnEqualClear: Equal set and Equal clear -/
theorem witness_equal_flag : (at_ 0 [] equal []).fl.e = true ∧ (at_ 0 [] clear []).fl.e = false := by decide

/-- a Running machine of `n` cells that hold the opcode of a row in cell 0 and nothing else -/
def shortMemory (row : Row) (n : Nat) : State :=
  { State.reset with mem := [(0, Config.allRows.opcode row)], cfg := { Config.allRows with memSize := n } }

/-- FetchOutOfRange of every row, OutOfRangeOnlyInFetch, OpcodeFetchOutOfRange, ErrorPriority: the opcode past the end, and for a row with
operands the operand `k` as the first byte past the end -/
theorem witness_fetch_out_of_range (row : Row) :
    (shortMemory row 0).run = .running ∧ (shortMemory row 0).cfg.memSize ≤ (shortMemory row 0).pc := ⟨rfl, Nat.le_refl 0⟩
theorem witness_operand_out_of_range (row : Row) (k : Nat) (h : 1 ≤ k) (hk : k ≤ row.operandCount) :
    let s := shortMemory row k
    s.run = .running ∧ s.pc < s.cfg.memSize ∧ s.cfg.memSize ≤ s.pc + k ∧ (∀ j < k, s.pc + j < s.cfg.memSize) ∧
      decodeOpcode s.cfg (s.mem.read s.pc) = some row ∧ decodeOpcode s.cfg (s.cfg.opcode row) = some row := by
  refine ⟨rfl, h, (Nat.zero_add k).symm.le, fun j hj => (Nat.zero_add j).symm ▸ hj, ?_, ?_⟩ <;> cases row <;> rfl
theorem witness_fetched_opcode (row : Row) (n : Nat) :
    (shortMemory row (n + 1)).memRead 0 = .ok ((shortMemory row (n + 1)).cfg.opcode row) := by
  cases row <;> exact if_pos (Nat.succ_pos n)
/-- OutOfRangeOnlyInFetch, its last two clauses: a fetch that succeeds in the last cells, and an execution after which an
OutOfRange is recorded, which stood before it -/
theorem witness_fetch : (at_ 254 [] clear [0x47, 0x02]).fetch = .ok (.prn 2) := rfl
theorem witness_out_of_range_kept : ∃ t, exec (.ldi 0 1) (State.reset.raise (.outOfRange 256)) = .next t ∧
    t.errinfo = some (.outOfRange 256) := ⟨_, rfl, rfl⟩
/-- OnlyWithExtension: a decode that answers ADD, and a machine without the extension whose pc is at the byte of ADD -/
theorem witness_extension : decode Config.allRows [0xA0, 0, 1] = .ok (.add 0 1, []) ∧
    (State.reset.putBytes 0 [0xA0]).run = .running ∧ (State.reset.putBytes 0 [0xA0]).cfg.extAddSub = false ∧
    (State.reset.putBytes 0 [0xA0]).memRead 0 = .ok (State.reset.cfg.opcode .add) ∧
    ∀ r : Row, r.inForce State.reset.cfg = true → State.reset.cfg.opcode r ≠ State.reset.cfg.opcode .add :=
  ⟨rfl, rfl, rfl, rfl, fun r => by cases r <;> decide⟩
theorem witness_extension_sub : decode Config.allRows [0xA1, 0, 1] = .ok (.sub 0 1, []) ∧
    (State.reset.putBytes 0 [0xA1]).memRead 0 = .ok (State.reset.cfg.opcode .sub) ∧
    ∀ r : Row, r.inForce State.reset.cfg = true → State.reset.cfg.opcode r ≠ State.reset.cfg.opcode .sub :=
  ⟨rfl, rfl, fun r => by cases r <;> decide⟩
/-- JumpTargetsUnchecked: the three taken jumps, a target past the end of memory, one at an instruction, one at an unknown byte -/
theorem witness_taken_jumps : TakenJump (at_ 0 [] clear []) (.jmp 7) 7 ∧ TakenJump (at_ 0 [] equal []) (.jeq 7) 7 ∧
    TakenJump (at_ 0 [] clear []) (.jne 0) 0 := ⟨.inl rfl, .inr (.inl ⟨rfl, rfl⟩), .inr (.inr ⟨rfl, rfl⟩)⟩
theorem witness_jump_target : (small 16 (at_ 3 [200] clear [0x54, 0x00])).run = .running ∧
    (small 16 (at_ 3 [200] clear [0x54, 0x00])).cfg.memSize ≤ ((small 16 (at_ 3 [200] clear [0x54, 0x00])).reg 0).toNat ∧
    decode Config.allRows ((at_ 0 [2] clear [0x54, 0x00, 0x01]).bytesAt 2 3) = .ok (.hlt, [0, 0]) ∧
    (at_ 0 [255] clear [0x54, 0x00]).memRead 255 = .ok 0x00 ∧ decodeOpcode Config.allRows 0x00 = none :=
  ⟨rfl, by decide, rfl, rfl, by decide⟩
/-- ArithmeticSignAgnostic: two registers, a subtraction and an addition that answer -/
theorem witness_subtract_add : (0 : Fin 8) ≠ 1 ∧ ∃ y, aluApply .unsigned .subtract 0 1 State.reset.x clear = .ok (y, clear) ∧
    ∃ z, aluApply .unsigned .add 0 1 y clear = .ok (z, clear) := ⟨by decide, _, rfl, _, rfl⟩
/-- FlagsTakeFourValues: a step that changes a flag, and a state with one flag set -/
theorem witness_flags_change : (∃ t, step (at_ 0 [1, 1] less [0xA7, 0, 1]) = .next t ∧ t.fl ≠ less) ∧
    (at_ 0 [1, 1] less [0xA7, 0, 1]).fl.count ≤ 1 := ⟨⟨_, rfl, by decide⟩, by decide⟩
/-- FlagAccess: other flags with the same Equal, other flags for an instruction that reads none, and a CMP that answers -/
theorem witness_flag_access : less.e = clear.e ∧ (Instr.jmp 0).row ≠ .jeq ∧ (Instr.jmp 0).row ≠ .jne ∧
    (Instr.cmp 0 1).row = .cmp ∧ (Instr.ldi 0 1).row ≠ .cmp ∧ ∃ t, exec (.cmp 0 1) (at_ 0 [1, 1] less []) = .next t :=
  ⟨rfl, by decide, by decide, rfl, by decide, _, rfl⟩
/-- PackedFlags: a bit above the flags -/
theorem witness_upper_bit : 3 ≤ 7 ∧ 3 ≤ 3 := by decide
/-- StepRunsDecodedInstruction: a Running machine with an instruction in the last cells -/
theorem witness_step_decodes : (at_ 254 [] clear [0x47, 0x02]).run = .running ∧
    decode (at_ 254 [] clear [0x47, 0x02]).cfg ((at_ 254 [] clear [0x47, 0x02]).bytesAt 254 3) = .ok (.prn 2, []) := ⟨rfl, rfl⟩
/-- UnknownOpcodeStops, ErrorPriority: an unknown byte in the last cell -/
theorem witness_unknown : (at_ 255 [] clear [0xFF]).memRead 255 = .ok 0xFF ∧
    (∀ r : Row, (at_ 255 [] clear [0xFF]).cfg.opcode r ≠ 0xFF) ∧
    decodeOpcode (at_ 255 [] clear [0xFF]).cfg ((at_ 255 [] clear [0xFF]).mem.read 255) = none := ⟨rfl, fun r => by cases r <;> decide, by decide⟩
/-- ErrorPriority, its last clause: all bytes in memory, a bad register operand, or none, and a step that answers from a state
with no error -/
theorem witness_priority : decodeOpcode Config.allRows 0xA2 = some .mul ∧
    (Row.mul.instr [0x09, 0x08]).firstBadReg = some 9 ∧ (Row.mul.instr [0x07, 0x07]).firstBadReg = none ∧
    253 + Row.mul.operandCount < Config.allRows.memSize ∧ State.reset.errinfo = none ∧ ∃ t, step State.reset = .next t :=
  ⟨by decide, by decide, by decide, by decide, rfl, _, rfl⟩
/-- FatalErrorsArePrecise, RegisterWriteWraps, FlagAccess, HaltOnlyByHltOrError: a step from Running with no error that ends in one -/
theorem witness_fatal : State.reset.run = .running ∧ State.reset.errinfo = none ∧
    ∃ t, step State.reset = .next t ∧ t.run = .halted ∧ t.errinfo = some (.unknownInstruction 0 0) := ⟨rfl, rfl, _, rfl, rfl, rfl⟩
/-- HaltOnlyByHltOrError: a step from Running that halts cleanly -/
theorem witness_clean_halt : ∃ t, step (at_ 0 [] clear [0x01]) = .next t ∧ t.HaltedCleanly := ⟨_, rfl, rfl, rfl, rfl⟩
/-- UnsupportedOperationUnreachable: its premise, met only where the error stood before the step -/
theorem witness_unsupported : ∃ t, step (State.reset.raise (.unsupportedOperation 3)) = .next t ∧
    t.errinfo = some (.unsupportedOperation 3) := ⟨_, rfl, rfl⟩
/-- OutputGrowsOnlyByPrn: a step that emits -/
theorem witness_output : ∃ t, step (at_ 0 [15] clear [0x47, 0x00]) = .next t ∧ t.out = [15] := ⟨_, rfl, rfl⟩

/-- the reset state meets the invariant -/
theorem witness_reset_inv : State.reset.Inv where
  mem_wf := by decide
  mem_bounded := by decide
  pc_le := by decide
  one_flag := by decide
  running_clean := fun _ => ⟨rfl, rfl⟩
  exit_matches := rfl
  errinfo_true := fun _ h => nomatch h
  cfg_wf := by decide

/-- StepKeepsInvariant: a state that meets the invariant, with memory in use, whose step answers and ends in an error -/
theorem witness_inv_step : State.reset.Inv ∧ (∃ t, step State.reset = .next t) ∧
    ∃ t, State.reset.onEvent (.reset (Vector.replicate 8 1)) = .next t := ⟨witness_reset_inv, ⟨_, rfl⟩, ⟨_, rfl⟩⟩
/-- ProgramsCannotSeeCompareOrder: two machines that differ in the order and in Less and Greater, and a step that answers -/
theorem witness_same_to_programs :
    (at_ 0 [200, 5] less [0xA7, 0, 1]).SameToPrograms ((at_ 0 [200, 5] greater [0xA7, 0, 1]).withOrder .twosComplement) ∧
    ∃ t, Sys2Proof.core.run 1 (at_ 0 [200, 5] less [0xA7, 0, 1]) = .next t := ⟨rfl, _, rfl⟩

end Sys2Proof.Tests
end

/-! ## What an instruction does, said once

Every proof about `exec` and `step` below goes through three statements: an instruction whose register operands are all
0..7 leaves `Instr.complete`, one with a bad operand is a fatal error, and `step_outcome` lists what a step can be. -/

section
namespace Sys2Proof.Machine
open Sys2Proof.Claims

/-! ### Registers an operand byte names -/

/-- The register an operand byte in 0..7 names; above 7 it stands for none and no proof asks for it. -/
def operandReg (r : Byte) : Fin 8 := Fin.ofNat 8 r.toNat

theorem operandReg_of_eq {r : Byte} {i : Fin 8} (h : r.toNat = i.val) : operandReg r = i := by
  simp [operandReg, h]

theorem toNat_eq_operandReg {r : Byte} (h : r.toNat ≤ 7) : r.toNat = (operandReg r).val := by
  simp [operandReg, Nat.mod_eq_of_lt (Nat.lt_succ_of_le h)]

theorem regByte_toNat (i : Fin 8) : (regByte i).toNat = i.val := by
  have := i.isLt
  simp only [regByte, BitVec.toNat_ofNat]
  omega

@[simp] theorem operandReg_regByte (i : Fin 8) : operandReg (regByte i) = i :=
  operandReg_of_eq (regByte_toNat i)

theorem regByte_operandReg {r : Byte} (h : r.toNat ≤ 7) : regByte (operandReg r) = r :=
  BitVec.eq_of_toNat_eq (by rw [regByte_toNat, toNat_eq_operandReg h])

/-- For an operand in 0..7, naming register `j` and being the byte of `j` are one. -/
theorem regByte_eq_iff {r : Byte} (h : r.toNat ≤ 7) (j : Fin 8) : regByte j = r ↔ j = operandReg r :=
  ⟨fun e => by rw [← e, operandReg_regByte], fun e => by rw [e, regByte_operandReg h]⟩

theorem withReg_of_le_seven {s : State} {r : Byte} (h : r.toNat ≤ 7) (run : Fin 8 → Result) :
    withReg s r run = run (operandReg r) :=
  withReg_of_eq (toNat_eq_operandReg h) run

theorem withRegs_of_le_seven {s : State} {ra rb : Byte} (ha : ra.toNat ≤ 7) (hb : rb.toNat ≤ 7)
    (run : Fin 8 → Fin 8 → Result) : withRegs s ra rb run = run (operandReg ra) (operandReg rb) := by
  rw [withRegs, withReg_of_le_seven ha, withReg_of_le_seven hb]

theorem withRegs_of_firstBad {s : State} {ra rb r : Byte} (h : [ra, rb].find? (fun r => 8 ≤ r.toNat) = some r)
    (run : Fin 8 → Fin 8 → Result) : withRegs s ra rb run = .next (s.raise (.invalidRegister r s.pc)) := by
  rcases Nat.lt_or_ge ra.toNat 8 with ha | ha
  · obtain ⟨hb, rfl⟩ : 8 ≤ rb.toNat ∧ rb = r := by simpa [Nat.not_le.2 ha] using h
    rw [withRegs, withReg_of_le_seven (by omega), withReg_of_le hb]
  · obtain rfl : ra = r := by simpa [ha] using h
    rw [withRegs, withReg_of_le ha]

theorem withReg_of_firstBad {s : State} {ra r : Byte} (h : [ra].find? (fun r => 8 ≤ r.toNat) = some r)
    (run : Fin 8 → Result) : withReg s ra run = .next (s.raise (.invalidRegister r s.pc)) := by
  obtain ⟨ha, rfl⟩ : 8 ≤ ra.toNat ∧ ra = r := by simpa using h
  exact withReg_of_le ha run

/-! ### Register writes -/

theorem u8_toNat_emod (v : Int) : ((u8 v).toNat : Int) = v % 256 := by
  simp only [u8, BitVec.toNat_ofInt]
  omega

theorem State.writeReg_writeReg_same (s : State) (i : Fin 8) (v w : Int) :
    (s.writeReg i v).writeReg i w = s.writeReg i w := by
  simp [State.writeReg, Regs.put]

theorem State.writeReg_comm (s : State) {i j : Fin 8} (h : i ≠ j) (v w : Int) :
    (s.writeReg i v).writeReg j w = (s.writeReg j w).writeReg i v := by
  simp [State.writeReg, Regs.put, Vector.set_comm _ _ (Fin.val_ne_of_ne h)]

/-! ### The state a completed instruction leaves -/

/-- `x[i] <- f(x[i], x[j])`, then the pc past the row's instruction: what MUL, ADD and SUB have in common (R111 to R113). -/
def State.arith (s : State) (f : Int → Int → Int) (i j : Fin 8) (row : Row) : State :=
  (s.writeReg i (f (s.reg i).toNat (s.reg j).toNat)).advance row

end Sys2Proof.Machine

namespace Sys2Proof
open Machine

/-- The state an instruction leaves when all its register operands are in 0..7. -/
def Instr.complete (s : State) : Instr → State
  | .hlt => (s.advance .hlt).haltClean
  | .ldi reg value => (s.writeReg (operandReg reg) value.toNat).advance .ldi
  | .prn reg => (s.emit (s.reg (operandReg reg))).advance .prn
  | .mul regA regB => s.arith (· * ·) (operandReg regA) (operandReg regB) .mul
  | .cmp regA regB =>
    (s.setFlags (cmpFlags s.cfg.cmpOrder (s.reg (operandReg regA)) (s.reg (operandReg regB)))).advance .cmp
  | .jmp reg => s.setPc (s.reg (operandReg reg)).toNat
  | .jeq reg => s.setPc (if s.fl.e then (s.reg (operandReg reg)).toNat else s.pc + 2)
  | .jne reg => s.setPc (if s.fl.e then s.pc + 2 else (s.reg (operandReg reg)).toNat)
  | .add regA regB => s.arith (· + ·) (operandReg regA) (operandReg regB) .add
  | .sub regA regB => s.arith (· - ·) (operandReg regA) (operandReg regB) .sub

/-! ### Which operands are bad -/

theorem Instr.regsInRange_iff (i : Instr) : i.regsInRange = true ↔ ∀ r ∈ i.regOperands, r.toNat ≤ 7 := by
  simp [Instr.regsInRange]

theorem Instr.firstBadReg_mem {i : Instr} {r : Byte} (h : i.firstBadReg = some r) : r ∈ i.regOperands ∧ 8 ≤ r.toNat :=
  ⟨List.mem_of_find?_eq_some h, by simpa using List.find?_some h⟩

theorem Instr.firstBadReg_none_iff (i : Instr) : i.firstBadReg = none ↔ i.regsInRange = true := by
  simp only [Instr.firstBadReg, List.find?_eq_none, decide_eq_true_eq, Instr.regsInRange_iff, Nat.not_le, Nat.lt_succ_iff]

theorem Instr.regsInRange_of_firstBadReg {i : Instr} {r : Byte} (h : i.firstBadReg = some r) : i.regsInRange = false := by
  rw [← Bool.not_eq_true, ← Instr.firstBadReg_none_iff, h]
  simp

end Sys2Proof

namespace Sys2Proof.Machine
open Sys2Proof.Claims

/-! ### `exec` and `step`, every outcome -/

/-- An instruction whose register operands are all in 0..7 completes. -/
theorem exec_of_inRange {i : Instr} (s : State) (h : i.regsInRange = true) : exec i s = .next (i.complete s) := by
  rw [Instr.regsInRange_iff] at h
  cases i with
  | hlt => rfl
  | ldi reg value => exact withReg_of_le_seven (h reg (by simp [Instr.regOperands])) _
  | prn reg => exact withReg_of_le_seven (h reg (by simp [Instr.regOperands])) _
  | mul ra rb | cmp ra rb | add ra rb | sub ra rb =>
    exact withRegs_of_le_seven (h ra (by simp [Instr.regOperands])) (h rb (by simp [Instr.regOperands])) _
  | jmp reg => exact withReg_of_le_seven (h reg (by simp [Instr.regOperands])) _
  | jeq reg =>
    refine (withReg_of_le_seven (h reg (by simp [Instr.regOperands])) _).trans ?_
    cases he : s.fl.e <;> (simp only [Instr.complete, Flags.equalSet, he]; rfl)
  | jne reg =>
    refine (withReg_of_le_seven (h reg (by simp [Instr.regOperands])) _).trans ?_
    cases he : s.fl.e <;> (simp only [Instr.complete, Flags.equalClear, he]; rfl)

/-- An instruction with a register operand above 7 is InvalidRegister for the first one (R84). -/
theorem exec_of_firstBadReg {i : Instr} {r : Byte} (s : State) (h : i.firstBadReg = some r) :
    exec i s = .next (s.raise (.invalidRegister r s.pc)) := by
  cases i with
  | hlt => cases h
  | ldi reg _ | prn reg | jmp reg | jeq reg | jne reg => exact withReg_of_firstBad h _
  | mul ra rb | cmp ra rb | add ra rb | sub ra rb => exact withRegs_of_firstBad h _

/-- Everything `exec` can do. -/
theorem exec_outcome {i : Instr} {s t : State} (h : exec i s = .next t) :
    (i.regsInRange = true ∧ t = i.complete s) ∨
      (∃ r, i.firstBadReg = some r ∧ t = s.raise (.invalidRegister r s.pc)) := by
  cases hb : i.firstBadReg with
  | none =>
    have hr := (i.firstBadReg_none_iff).1 hb
    rw [exec_of_inRange s hr] at h
    exact .inl ⟨hr, (Host.Outcome.next.inj h).symm⟩
  | some r =>
    rw [exec_of_firstBadReg s hb] at h
    exact .inr ⟨r, rfl, (Host.Outcome.next.inj h).symm⟩

/-- The fatal error that ends the step of a Running core: one of fetch and decode, or a bad operand of what was fetched. -/
def State.StepError (s : State) (e : ErrInfo) : Prop :=
  s.fetch = .error e ∨ ∃ i r, s.fetch = .ok i ∧ i.firstBadReg = some r ∧ e = .invalidRegister r s.pc

/-- Everything a step can be: none in a Halted core, a fatal error, or the completion of the fetched instruction. -/
theorem step_outcome {s t : State} (h : step s = .next t) :
    (s.run = .halted ∧ t = s) ∨
      (s.run = .running ∧ ∃ e, s.StepError e ∧ t = s.raise e) ∨
      (s.run = .running ∧ ∃ i, s.fetch = .ok i ∧ i.regsInRange = true ∧ t = i.complete s) := by
  rcases step_cases h with h | ⟨hrun, e, hf, rfl⟩ | ⟨hrun, i, hf, hx⟩
  · exact .inl h
  · exact .inr (.inl ⟨hrun, e, .inl hf, rfl⟩)
  · rcases exec_outcome hx with ⟨hr, rfl⟩ | ⟨r, hb, rfl⟩
    · exact .inr (.inr ⟨hrun, i, hf, hr, rfl⟩)
    · exact .inr (.inl ⟨hrun, _, .inr ⟨i, r, hf, hb, rfl⟩, rfl⟩)

theorem step_of_halted {s : State} (h : s.run = .halted) : step s = .next s := by
  simp [step, h]

theorem step_of_fetch_ok {s : State} {i : Instr} (hrun : s.run = .running) (h : s.fetch = .ok i) : step s = exec i s := by
  simp [step, hrun, h]

theorem step_of_stepError {s : State} {e : ErrInfo} (hrun : s.run = .running) (h : s.StepError e) :
    step s = .next (s.raise e) := by
  rcases h with hf | ⟨i, r, hf, hb, rfl⟩
  · simp [step, hrun, hf]
  · rw [step_of_fetch_ok hrun hf, exec_of_firstBadReg s hb]

/-- A run of `k + 1` steps that answers is a step that answers and a run of `k`. -/
theorem run_succ_iff (M : Host.Core) {k : Nat} {s t : M.State} :
    M.run (k + 1) s = .next t ↔ ∃ u, M.step s = .next u ∧ M.run k u = .next t := by
  rw [Host.Core.run]
  cases M.step s <;> simp

theorem core_run_zero {s t : State} : Sys2Proof.core.run 0 s = .next t ↔ s = t :=
  ⟨Host.Outcome.next.inj, congrArg _⟩

theorem core_run_succ {k : Nat} {s t : State} :
    Sys2Proof.core.run (k + 1) s = .next t ↔ ∃ u, step s = .next u ∧ Sys2Proof.core.run k u = .next t :=
  run_succ_iff Sys2Proof.core

end Sys2Proof.Machine

namespace Sys2Proof
open Machine Claims

/-! ### What a completed instruction changes, field by field -/

variable (i : Instr) (s : State)

@[simp] theorem Instr.complete_mem : (i.complete s).mem = s.mem := by cases i <;> rfl

@[simp] theorem Instr.complete_cfg : (i.complete s).cfg = s.cfg := by cases i <;> rfl

variable {i}

theorem Instr.complete_fl (h : i.row ≠ .cmp) : (i.complete s).fl = s.fl := by
  cases i with
  | cmp => exact absurd rfl h
  | _ => rfl

theorem Instr.complete_out (h : i.row ≠ .prn) : (i.complete s).out = s.out := by
  cases i with
  | prn => exact absurd rfl h
  | _ => rfl

theorem Instr.complete_ending (h : i.row ≠ .hlt) :
    (i.complete s).run = s.run ∧ (i.complete s).exit = s.exit ∧ (i.complete s).errinfo = s.errinfo := by
  cases i with
  | hlt => exact absurd rfl h
  | _ => exact ⟨rfl, rfl, rfl⟩

/-- HLT clears the error context, the others leave it. -/
theorem Instr.complete_errinfo_none (i : Instr) {s : State} (h : s.errinfo = none) : (i.complete s).errinfo = none := by
  cases i with
  | hlt => rfl
  | _ => exact h

theorem Instr.complete_exit_ok (i : Instr) {s : State} (h : s.exit = .ok) : (i.complete s).exit = .ok := by
  cases i with
  | hlt => rfl
  | _ => exact h

theorem Instr.eq_hlt_of_row (h : i.row = .hlt) : i = .hlt := by
  cases i with
  | hlt => rfl
  | _ => cases h

theorem Instr.complete_reg {j : Fin 8} (hr : i.regsInRange = true) (h : regByte j ∉ i.writes) :
    (i.complete s).reg j = s.reg j := by
  rw [Instr.regsInRange_iff] at hr
  cases i with
  | ldi reg _ | mul reg _ | add reg _ | sub reg _ =>
    have hne : operandReg reg ≠ j := fun e => h <| by
      simp [Instr.writes, (regByte_eq_iff (hr reg (by simp [Instr.regOperands])) j).2 e.symm]
    exact State.reg_writeReg_other s _ hne
  | _ => rfl

end Sys2Proof
end

/-! ## StepKeepsInvariant: the error context of a fatal error is true, and completion stays within `PC_MAX` -/

section
namespace Sys2Proof
open Machine Claims

theorem Row.operandCount_le_two (r : Row) : r.operandCount ≤ 2 := by cases r <;> decide

/-- A register operand of a fetched instruction is one of the operand bytes its row has. -/
theorem Row.mem_regOperands_instr {row : Row} {f : Nat → Byte} {r : Byte}
    (h : r ∈ (row.instr ((List.range row.operandCount).map f)).regOperands) : ∃ k < row.operandCount, r = f k := by
  cases row with
  | hlt => cases h
  | ldi | prn | jmp | jeq | jne => exact ⟨0, by decide, List.mem_singleton.1 h⟩
  | mul | cmp | add | sub =>
    have hk : r = f 0 ∨ r = f 1 := by
      simpa [Row.instr, Row.operandCount, Instr.regOperands, List.range_succ] using h
    exact hk.elim (fun h => ⟨0, by decide, h⟩) fun h => ⟨1, by decide, h⟩

/-- R18: past the instruction, or to a register's value, which is at most 255. -/
theorem Instr.complete_pc_le (i : Instr) (s : State) : (i.complete s).pc ≤ max (s.pc + i.row.width) 255 := by
  have reg_le (j : Fin 8) : (s.reg j).toNat ≤ 255 := Nat.le_of_lt_succ (s.reg j).isLt
  cases i with
  | jmp r => exact le_max_of_le_right (reg_le _)
  | jeq r | jne r =>
    have := reg_le (operandReg r)
    cases he : s.fl.e <;> simp [Instr.complete, Instr.row, Row.width, Row.operandCount, he, this]
  | _ => exact le_max_left _ _

end Sys2Proof

namespace Sys2Proof.Machine
open Sys2Proof.Claims

/-- Compare sets exactly one flag (R121). -/
theorem cmpFlags_count (order : CmpOrder) (va vb : Byte) : (cmpFlags order va vb).count = 1 := by
  unfold cmpFlags
  split_ifs <;> rfl

/-- At most one flag stays set: CMP sets one, and no other instruction writes them. -/
theorem Flags.count_complete_le (i : Instr) {s : State} (h : s.fl.count ≤ 1) : (i.complete s).fl.count ≤ 1 := by
  cases i with
  | cmp ra rb => exact (cmpFlags_count _ _ _).le
  | _ => exact h

/-- R141, R142, R144: what a fatal error records is true of the state it leaves, and the pc is within `PC_MAX`. -/
theorem State.StepError.truthful {s : State} {e : ErrInfo} (h : s.StepError e) :
    e.Truthful (s.raise e) ∧ e.pcAfter s.pc ≤ max s.pc s.cfg.memSize := by
  rcases h with hf | ⟨i, r, hf, hb, rfl⟩
  · rcases State.fetch_error hf with ⟨hle, rfl⟩ | ⟨hlt, hd, rfl⟩ | ⟨hlt, row, k, -, hk, hle, -, rfl⟩
    · exact ⟨⟨hle, le_rfl, Nat.le_add_right _ _⟩, le_max_left _ _⟩
    · exact ⟨⟨hlt, rfl, hd, rfl⟩, le_max_of_le_right hlt⟩
    · have := row.operandCount_le_two
      refine ⟨⟨hle, ?_, ?_⟩, le_max_left _ _⟩ <;> simp only [State.raise_pc, ErrInfo.pcAfter] <;> omega
  · obtain ⟨row, -, hfit, rfl⟩ := State.fetch_ok hf
    obtain ⟨hmem, hr⟩ := Instr.firstBadReg_mem hb
    obtain ⟨k, hk, hread⟩ := Row.mem_regOperands_instr hmem
    refine ⟨⟨rfl, hr, ?_⟩, le_max_left _ _⟩
    have := row.operandCount_le_two
    simp only [Row.width] at hfit
    obtain rfl | rfl : k = 0 ∨ k = 1 := by omega
    · exact .inl ⟨show s.pc + 1 < s.cfg.memSize by omega, hread.symm⟩
    · exact .inr ⟨show s.pc + 2 < s.cfg.memSize by omega, hread.symm⟩

/-- A fatal error keeps the invariant. -/
theorem State.Inv.raise {s : State} {e : ErrInfo} (h : s.Inv) (he : s.StepError e) : (s.raise e).Inv := by
  obtain ⟨htrue, hpc⟩ := he.truthful
  exact {
    mem_wf := h.mem_wf
    mem_bounded := h.mem_bounded
    pc_le := hpc.trans (max_le h.pc_le (le_max_left _ _))
    one_flag := h.one_flag
    running_clean := fun hrun => nomatch hrun
    exit_matches := rfl
    errinfo_true := fun e' h' => Option.some.inj h' ▸ htrue
    cfg_wf := h.cfg_wf }

/-- The completion of an instruction that stands in memory keeps the invariant. -/
theorem State.Inv.complete {s : State} {i : Instr} (h : s.Inv) (hrun : s.run = .running)
    (hfit : s.pc + i.row.width ≤ s.cfg.memSize) : (i.complete s).Inv := by
  obtain ⟨hexit₀, herr₀⟩ := h.running_clean hrun
  have hexit := i.complete_exit_ok hexit₀
  have herr := i.complete_errinfo_none herr₀
  exact {
    mem_wf := by simpa using h.mem_wf
    mem_bounded := by simpa using h.mem_bounded
    pc_le := by
      rw [Instr.complete_cfg]
      exact (i.complete_pc_le s).trans (max_le_max hfit le_rfl)
    one_flag := Flags.count_complete_le i h.one_flag
    running_clean := fun _ => ⟨hexit, herr⟩
    exit_matches := by rw [hexit, herr]; rfl
    errinfo_true := fun e he => by rw [herr] at he; cases he
    cfg_wf := by simpa using h.cfg_wf }

theorem State.Inv.step {s t : State} (h : s.Inv) (hs : step s = .next t) : t.Inv := by
  rcases step_outcome hs with ⟨-, rfl⟩ | ⟨-, e, he, rfl⟩ | ⟨hrun, i, hf, -, rfl⟩
  · exact h
  · exact h.raise he
  · obtain ⟨row, -, hfit, rfl⟩ := State.fetch_ok hf
    exact h.complete hrun (by rwa [Row.instr_row])

/-- R170: reset meets the invariant whatever state and register values it starts from. -/
theorem State.Inv.afterReset {cfg : Config} {mem : Memory} (regReset : Regs) (hcfg : cfg.wf) (hmem : mem.wf)
    (hbound : ∀ c ∈ mem, c.1 < cfg.memSize) : (State.afterReset cfg mem regReset).Inv where
  mem_wf := hmem
  mem_bounded := hbound
  pc_le := Nat.zero_le _
  one_flag := Nat.zero_le _
  running_clean := fun _ => ⟨rfl, rfl⟩
  exit_matches := rfl
  errinfo_true := fun _ h => nomatch h
  cfg_wf := hcfg

/-- Settles O53: a step is nothing, a fatal error with a true context, or the completion of an instruction that stands in
memory, and reset meets the invariant anyway. -/
theorem stepKeepsInvariant : Obligations.StepKeepsInvariant := by
  refine ⟨fun s t h hs => h.step hs, fun s t e h he => ?_⟩
  cases e with
  | step => exact h.step he
  | reset regReset =>
    cases he
    exact State.Inv.afterReset regReset h.cfg_wf h.mem_wf h.mem_bounded

/-- Settles O11: nothing of the invariant depends on the register values. -/
theorem resetMeetsInvariant : Obligations.ResetMeetsInvariant :=
  ⟨State.Inv.afterReset _ (by decide) State.reset_mem_wf (fun _ h => nomatch h),
    fun _ regReset hcfg hmem hbound => State.Inv.afterReset regReset hcfg hmem hbound⟩

end Sys2Proof.Machine
end

/-! ## ProgramsCannotSeeCompareOrder: a relation between two machines that every step keeps -/

section
namespace Sys2Proof.Machine
open Sys2Proof.Claims

/-- R121: both orders agree on Equal, which is equality of the bytes. -/
theorem cmpFlags_e (order : CmpOrder) (va vb : Byte) : (cmpFlags order va vb).e = decide (va = vb) := by
  have hkey : cmpKey order va = cmpKey order vb ↔ va = vb := by
    refine ⟨fun h => BitVec.eq_of_toNat_eq ?_, congrArg _⟩
    have := va.isLt
    have := vb.isLt
    cases order with
    | unsigned => exact Int.ofNat.inj h
    | twosComplement =>
      simp only [cmpKey, s8] at h
      split_ifs at h <;> omega
  unfold cmpFlags
  by_cases h : va = vb
  · simp [h]
  · simp only [hkey, h, if_false, decide_false]
    split_ifs <;> rfl

/-- The state with another `CMP_ORDER` and with other values in Less and Greater: what no program can tell from `s`. -/
def State.withHidden (s : State) (o : CmpOrder) (l g : Bool) : State :=
  (s.withOrder o).setFlags { l := l, g := g, e := s.fl.e }

theorem State.sameToPrograms_iff {s t : State} : s.SameToPrograms t ↔ ∃ o l g, t = s.withHidden o l g := by
  refine ⟨fun h => ⟨t.cfg.cmpOrder, t.fl.l, t.fl.g, ?_⟩, fun ⟨o, l, g, h⟩ => h ▸ rfl⟩
  obtain ⟨x, pc, ⟨l, g, e⟩, run, exit, errinfo, mem, out, ⟨opc, memSize, ext, order⟩⟩ := t
  simp only [State.SameToPrograms, State.withOrder, State.mk.injEq, Flags.mk.injEq, Config.mk.injEq] at h
  simp [State.withHidden, State.withOrder, State.setFlags, h]

section
variable (s : State) (o : CmpOrder) (l g : Bool)

theorem State.readBytes_withHidden (a n : Nat) : (s.withHidden o l g).readBytes a n = s.readBytes a n := by
  induction n generalizing a with
  | zero => rfl
  | succ n ih =>
    rw [State.readBytes, State.readBytes, ih]
    rfl

/-- Fetch and decode look neither at `CMP_ORDER` nor at the flags. -/
theorem State.fetch_withHidden : (s.withHidden o l g).fetch = s.fetch := by
  rw [State.fetch, State.fetch]
  simp only [State.readBytes_withHidden]
  rfl

theorem State.stepError_withHidden (e : ErrInfo) : (s.withHidden o l g).StepError e ↔ s.StepError e := by
  rw [State.StepError, State.StepError, State.fetch_withHidden]
  rfl

/-- Only CMP looks at `CMP_ORDER`, only the jumps at a flag, Equal: a completed instruction keeps the difference hidden. -/
theorem State.sameToPrograms_complete (i : Instr) : (i.complete s).SameToPrograms (i.complete (s.withHidden o l g)) := by
  cases i with
  | cmp ra rb =>
    have he : (cmpFlags o (s.reg (operandReg ra)) (s.reg (operandReg rb))).e =
        (cmpFlags s.cfg.cmpOrder (s.reg (operandReg ra)) (s.reg (operandReg rb))).e := by
      rw [cmpFlags_e, cmpFlags_e]
    exact congrArg (fun e => ({ (s.withOrder .unsigned).advance .cmp with fl := ⟨false, false, e⟩ } : State)) he.symm
  | _ => rfl
end

theorem State.SameToPrograms.step {s s' t : State} (h : s.SameToPrograms s') (hs : step s = .next t) :
    ∃ t', Machine.step s' = .next t' ∧ t.SameToPrograms t' := by
  obtain ⟨o, l, g, rfl⟩ := State.sameToPrograms_iff.1 h
  rcases step_outcome hs with ⟨hrun, rfl⟩ | ⟨hrun, e, he, rfl⟩ | ⟨hrun, i, hf, hr, rfl⟩
  · exact ⟨_, step_of_halted hrun, h⟩
  · exact ⟨_, step_of_stepError hrun ((State.stepError_withHidden s o l g e).2 he), rfl⟩
  · have hf' : (s.withHidden o l g).fetch = .ok i := (State.fetch_withHidden s o l g).trans hf
    have hrun' : (s.withHidden o l g).run = .running := hrun
    exact ⟨_, (step_of_fetch_ok hrun' hf').trans (exec_of_inRange _ hr), State.sameToPrograms_complete s o l g i⟩

theorem State.SameToPrograms.run {k : Nat} {s s' t : State} (h : s.SameToPrograms s')
    (hs : Sys2Proof.core.run k s = .next t) : ∃ t', Sys2Proof.core.run k s' = .next t' ∧ t.SameToPrograms t' := by
  induction k generalizing s s' with
  | zero => exact ⟨s', rfl, core_run_zero.1 hs ▸ h⟩
  | succ k ih =>
    obtain ⟨u, hu, hk⟩ := core_run_succ.1 hs
    obtain ⟨u', hu', hsame⟩ := h.step hu
    obtain ⟨t', ht', hfin⟩ := ih hsame hk
    exact ⟨t', core_run_succ.2 ⟨u', hu', ht'⟩, hfin⟩

/-- Settles O54, by induction on the number of steps with `State.SameToPrograms` as the relation. -/
theorem programsCannotSeeCompareOrder : Obligations.ProgramsCannotSeeCompareOrder := by
  intro k s s' t h hs
  obtain ⟨t', ht', hsame⟩ := h.run hs
  obtain ⟨o, l, g, rfl⟩ := State.sameToPrograms_iff.1 hsame
  exact ⟨_, ht', hsame, rfl, rfl, rfl, rfl, rfl, rfl⟩

end Sys2Proof.Machine
end

/-! ## Frames: what `exec` and `step` leave as it was -/

section
namespace Sys2Proof.Machine
open Sys2Proof.Claims

theorem exec_mem_cfg {i : Instr} {s t : State} (h : exec i s = .next t) : t.mem = s.mem ∧ t.cfg = s.cfg := by
  rcases exec_outcome h with ⟨-, rfl⟩ | ⟨r, -, rfl⟩
  · exact ⟨i.complete_mem s, i.complete_cfg s⟩
  · exact ⟨rfl, rfl⟩

theorem step_mem_cfg {s t : State} (h : step s = .next t) : t.mem = s.mem ∧ t.cfg = s.cfg := by
  rcases step_outcome h with ⟨-, rfl⟩ | ⟨-, e, -, rfl⟩ | ⟨-, i, -, -, rfl⟩
  · exact ⟨rfl, rfl⟩
  · exact ⟨rfl, rfl⟩
  · exact ⟨i.complete_mem s, i.complete_cfg s⟩

theorem run_mem_cfg {k : Nat} {s t : State} (h : Sys2Proof.core.run k s = .next t) : t.mem = s.mem ∧ t.cfg = s.cfg := by
  induction k generalizing s with
  | zero => exact core_run_zero.1 h ▸ ⟨rfl, rfl⟩
  | succ k ih =>
    obtain ⟨u, hu, hk⟩ := core_run_succ.1 h
    obtain ⟨hmem, hcfg⟩ := ih hk
    obtain ⟨hmem', hcfg'⟩ := step_mem_cfg hu
    exact ⟨hmem.trans hmem', hcfg.trans hcfg'⟩

theorem exec_reg_of_not_mem_writes {i : Instr} {s t : State} {j : Fin 8} (h : exec i s = .next t)
    (hj : regByte j ∉ i.writes) : t.reg j = s.reg j := by
  rcases exec_outcome h with ⟨hr, rfl⟩ | ⟨r, -, rfl⟩
  · exact Instr.complete_reg s hr hj
  · rfl

theorem exec_fl_of_row_ne_cmp {i : Instr} {s t : State} (h : exec i s = .next t) (hi : i.row ≠ .cmp) : t.fl = s.fl := by
  rcases exec_outcome h with ⟨-, rfl⟩ | ⟨r, -, rfl⟩
  · exact Instr.complete_fl s hi
  · rfl

/-- A step after which an error context stands that did not stand before took a fatal error, and did nothing else. -/
theorem eq_raise_of_step_errinfo {s t : State} (hs : s.errinfo = none) (h : step s = .next t) (ht : t.errinfo ≠ none) :
    ∃ e, t = s.raise e := by
  rcases step_outcome h with ⟨-, rfl⟩ | ⟨-, e, -, rfl⟩ | ⟨-, i, -, -, rfl⟩
  · exact absurd hs ht
  · exact ⟨e, rfl⟩
  · exact absurd (i.complete_errinfo_none hs) ht

/-- Settles O16, by induction on the number of steps. -/
theorem memoryConstantInARun : Obligations.MemoryConstantInARun := by
  refine ⟨fun k s t h => run_mem_cfg h, fun s t e h => ?_⟩
  cases e with
  | step => exact step_mem_cfg h
  | reset regReset =>
    cases h
    exact ⟨rfl, rfl⟩

/-- Settles O17: a register write, the "Writes" column as a frame, and a fatal error, which writes no register. -/
theorem registerWriteWraps : Obligations.RegisterWriteWraps := by
  refine ⟨fun s i v => ⟨?_, fun j hj => State.reg_writeReg_other s v hj.symm⟩,
    fun i s t j h hj => exec_reg_of_not_mem_writes h hj, fun s t hs h ht => ?_⟩
  · rw [State.reg_writeReg_same, u8_toNat_emod]
  · obtain ⟨e, rfl⟩ := eq_raise_of_step_errinfo hs h ht
    rfl

/-- Settles O30: the frame of completion, and a bad operand is a fatal error, which changes only how the run has ended. -/
theorem instructionFrame : Obligations.InstructionFrame := by
  intro i s t h
  obtain ⟨hmem, hcfg⟩ := exec_mem_cfg h
  refine ⟨fun a => by rw [hmem], hmem, hcfg, fun j hj => exec_reg_of_not_mem_writes h hj,
    exec_fl_of_row_ne_cmp h, ?_⟩
  rcases exec_outcome h with ⟨hr, rfl⟩ | ⟨r, hb, rfl⟩
  · exact ⟨Instr.complete_out s, fun hi _ => Instr.complete_ending s hi, fun hbad => by simp [hr] at hbad⟩
  · exact ⟨fun _ => rfl, fun _ hr => by simp [Instr.regsInRange_of_firstBadReg hb] at hr, fun _ => ⟨rfl, rfl, rfl, rfl⟩⟩

/-- Settles O19: `exec` by whether there is a bad operand; of the completed instructions only HLT ends the run. -/
theorem operandValidation : Obligations.OperandValidation := by
  refine fun i s => ⟨fun r hb => exec_of_firstBadReg s hb, fun hr => ⟨_, exec_of_inRange s hr, ?_⟩⟩
  by_cases hi : i.row = .hlt
  · cases Instr.eq_hlt_of_row hi
    exact .inr ⟨rfl, rfl, rfl⟩
  · obtain ⟨hrun, hexit, herr⟩ := Instr.complete_ending s hi
    exact .inl ⟨herr, hexit, hrun⟩

/-- Settles O31: the pc of `Instr.complete`, row by row. -/
theorem pcAfterInstruction : Obligations.PcAfterInstruction := by
  intro i s t hr h
  rw [exec_of_inRange s hr, Host.Outcome.next.injEq] at h
  subst h
  cases i with
  | hlt => exact ⟨rfl, rfl⟩
  | jmp r | jeq r | jne r =>
    rintro k rfl
    simp [Instr.complete]
  | _ => rfl

/-- Settles O50: of the completed instructions only HLT changes the run state. -/
theorem haltOnlyByHltOrError : Obligations.HaltOnlyByHltOrError := by
  intro s t h
  rcases step_outcome h with ⟨hrun, rfl⟩ | ⟨hrun, e, -, rfl⟩ | ⟨hrun, i, hf, -, rfl⟩
  · exact ⟨fun hrun' => by simp [hrun] at hrun', id⟩
  · exact ⟨fun _ _ => .inr ⟨e, rfl, rfl, rfl⟩, fun _ => rfl⟩
  · refine ⟨fun _ ht => .inl ?_, fun hhalt => by simp [hrun] at hhalt⟩
    have hi : i.row = .hlt := by
      by_contra hi
      obtain ⟨hrun', -, -⟩ := Instr.complete_ending s hi
      simp [ht, hrun] at hrun'
    cases Instr.eq_hlt_of_row hi
    exact ⟨hf, rfl, rfl, rfl⟩

/-- Settles O52: of the completed instructions only PRN emits. -/
theorem outputGrowsOnlyByPrn : Obligations.OutputGrowsOnlyByPrn := by
  intro s t h
  rcases step_outcome h with ⟨-, rfl⟩ | ⟨-, e, -, rfl⟩ | ⟨-, i, hf, hr, rfl⟩
  · exact .inl rfl
  · exact .inl rfl
  · cases i with
    | prn r =>
      have hle : r.toNat ≤ 7 := (Instr.regsInRange_iff _).1 hr r (List.mem_singleton_self r)
      exact .inr ⟨r, operandReg r, hf, toNat_eq_operandReg hle, rfl⟩
    | _ => exact .inl rfl

end Sys2Proof.Machine
end

/-! ## Registers: what an instruction depends on -/

section
namespace Sys2Proof.Machine
open Sys2Proof.Claims

/-- A register that an arithmetic instruction does not name keeps another value put into it. -/
theorem State.arith_writeReg (s : State) (f : Int → Int → Int) {i k j : Fin 8} (row : Row) (v : Int)
    (hi : j ≠ i) (hk : j ≠ k) : (s.writeReg j v).arith f i k row = (s.arith f i k row).writeReg j v := by
  rw [State.arith, State.reg_writeReg_other s v hi, State.reg_writeReg_other s v hk, State.writeReg_comm s hi]
  rfl

/-- R13: another value in a register outside the "Reads" column is overwritten when the instruction writes the register, and
otherwise still stands. -/
theorem complete_writeReg {i : Instr} (s : State) {j : Fin 8} (v : Int) (hr : i.regsInRange = true)
    (hj : regByte j ∉ i.reads s.fl) :
    i.complete (s.writeReg j v) = if regByte j ∈ i.writes then i.complete s else (i.complete s).writeReg j v := by
  have named : ∀ r ∈ i.regOperands, (regByte j = r ↔ j = operandReg r) := fun r h =>
    regByte_eq_iff ((Instr.regsInRange_iff i).1 hr r h) j
  cases i with
  | hlt => rfl
  | ldi reg value =>
    simp only [Instr.regOperands, List.forall_mem_singleton] at named
    simp only [Instr.complete, Instr.writes, List.mem_singleton, named]
    split_ifs with hjr
    · rw [hjr, State.writeReg_writeReg_same]
    · rw [State.writeReg_comm s hjr]
      rfl
  | prn reg | jmp reg =>
    have hjr : j ≠ operandReg reg := by simpa [Instr.reads, named reg (List.mem_singleton_self reg)] using hj
    simp only [Instr.complete, State.reg_writeReg_other s v hjr]
    rfl
  | jeq reg =>
    cases he : s.fl.e with
    | false =>
      simp only [Instr.complete, State.writeReg_fl, he]
      rfl
    | true =>
      have hjr : j ≠ operandReg reg := by simpa [Instr.reads, he, named reg (List.mem_singleton_self reg)] using hj
      simp only [Instr.complete, State.writeReg_fl, he, State.reg_writeReg_other s v hjr]
      rfl
  | jne reg =>
    cases he : s.fl.e with
    | true =>
      simp only [Instr.complete, State.writeReg_fl, he]
      rfl
    | false =>
      have hjr : j ≠ operandReg reg := by simpa [Instr.reads, he, named reg (List.mem_singleton_self reg)] using hj
      simp only [Instr.complete, State.writeReg_fl, he, State.reg_writeReg_other s v hjr]
      rfl
  | mul ra rb | add ra rb | sub ra rb =>
    simp only [Instr.regOperands, List.forall_mem_cons] at named
    obtain ⟨hja, hjb⟩ : j ≠ operandReg ra ∧ j ≠ operandReg rb := by simpa [Instr.reads, named] using hj
    simp only [Instr.complete, Instr.writes, List.mem_singleton, named, hja, if_false, State.arith_writeReg s _ _ v hja hjb]
  | cmp ra rb =>
    simp only [Instr.regOperands, List.forall_mem_cons] at named
    obtain ⟨hja, hjb⟩ : j ≠ operandReg ra ∧ j ≠ operandReg rb := by simpa [Instr.reads, named] using hj
    simp only [Instr.complete, State.reg_writeReg_other s v hja, State.reg_writeReg_other s v hjb]
    rfl

/-- Settles O18: noninterference of completion, and a bad operand is found from the operand bytes alone. -/
theorem registerAccessTable : Obligations.RegisterAccessTable := by
  refine fun i s t j h => ⟨fun hj => exec_reg_of_not_mem_writes h hj, fun v hj => ?_⟩
  rcases exec_outcome h with ⟨hr, rfl⟩ | ⟨r, hb, rfl⟩
  · rw [exec_of_inRange _ hr, complete_writeReg s v hr hj]
    simp only [hr, and_true]
  · simp only [exec_of_firstBadReg _ hb, Instr.regsInRange_of_firstBadReg hb, Bool.false_eq_true, and_false, if_false]
    rfl

end Sys2Proof.Machine
end

/-! ## Flags: who writes and who reads them -/

section
namespace Sys2Proof.Machine
open Sys2Proof.Claims

/-- R21: with other flags, the same Equal for JEQ and JNE, a completed instruction does the same; CMP overwrites them, the others
leave them. -/
theorem complete_setFlags (i : Instr) (s : State) (f : Flags) (h : f.e = s.fl.e ∨ (i.row ≠ .jeq ∧ i.row ≠ .jne)) :
    i.complete (s.setFlags f) = (i.complete s).setFlags (if i.row = .cmp then (i.complete s).fl else f) := by
  cases i with
  | jeq r | jne r =>
    have he : f.e = s.fl.e := h.elim id fun ⟨hq, hn⟩ => by simp [Instr.row] at hq hn
    simp only [Instr.complete, State.setFlags_fl, he]
    rfl
  | _ => rfl

/-- Settles O38: only CMP writes the flags, and Compare sets exactly one. -/
theorem flagsTakeFourValues : Obligations.FlagsTakeFourValues := by
  refine ⟨fun s t h hfl => ?_, fun s t ra rb ha hb h => ?_, fun s t hc h => ?_⟩
  · rcases step_outcome h with ⟨-, rfl⟩ | ⟨-, e, -, rfl⟩ | ⟨-, i, hf, -, rfl⟩
    · exact absurd rfl hfl
    · exact absurd rfl hfl
    · cases i with
      | cmp ra rb => exact ⟨ra, rb, hf⟩
      | _ => exact absurd rfl hfl
  · have hr : (Instr.cmp ra rb).regsInRange = true := by simp [Instr.regsInRange_iff, Instr.regOperands, ha, hb]
    rw [exec_of_inRange s hr] at h
    cases h
    exact cmpFlags_count _ _ _
  · rcases step_outcome h with ⟨-, rfl⟩ | ⟨-, e, -, rfl⟩ | ⟨-, i, -, -, rfl⟩
    · exact hc
    · exact hc
    · exact Flags.count_complete_le i hc

/-- Settles O39: noninterference of completion, and a fatal error reads and writes no flag. -/
theorem flagAccess : Obligations.FlagAccess := by
  refine ⟨fun i s t f h => ⟨exec_fl_of_row_ne_cmp h, fun hf => ?_⟩, fun s t hs h ht => ?_⟩
  · change exec i (s.setFlags f) = _
    rcases exec_outcome h with ⟨hr, rfl⟩ | ⟨r, hb, rfl⟩
    · rw [exec_of_inRange _ hr, complete_setFlags i s f hf]
      simp only [hr, and_true]
      rfl
    · simp only [exec_of_firstBadReg _ hb, Instr.regsInRange_of_firstBadReg hb, Bool.false_eq_true, and_false, if_false]
      rfl
  · obtain ⟨e, rfl⟩ := eq_raise_of_step_errinfo hs h ht
    rfl

theorem Flags.packed_bits (fl : Flags) :
    fl.packed.getLsbD 2 = fl.l ∧ fl.packed.getLsbD 1 = fl.g ∧ fl.packed.getLsbD 0 = fl.e := by
  obtain ⟨l, g, e⟩ := fl
  cases l <;> cases g <;> cases e <;> exact ⟨rfl, rfl, rfl⟩

theorem Flags.packed_toNat_lt (fl : Flags) : fl.packed.toNat < 2 ^ 3 := by
  obtain ⟨l, g, e⟩ := fl
  cases l <;> cases g <;> cases e <;> decide

/-- Settles O40: the three low bits one by one, and the byte is below 8. -/
theorem packedFlags : Obligations.PackedFlags := by
  intro fl
  obtain ⟨hl, hg, he⟩ := fl.packed_bits
  refine ⟨hl, hg, he, fun k hk => Nat.testBit_lt_two_pow ?_⟩
  exact fl.packed_toNat_lt.trans_le (Nat.pow_le_pow_right (by decide) hk)

end Sys2Proof.Machine
end

/-! ## Reset -/

section
namespace Sys2Proof.Machine
open Sys2Proof.Claims

/-- The bytes that stand from an address on, as far as they go, are what reading them in order answers. -/
theorem State.readBytes_of_le_bytesAt {s : State} {n m a : Nat} (h : n ≤ (s.bytesAt a m).length) :
    s.readBytes a n = .ok ((s.bytesAt a m).take n) := by
  induction n generalizing m a with
  | zero => rfl
  | succ n ih =>
    cases m with
    | zero => cases h
    | succ m =>
      rw [State.bytesAt] at h ⊢
      rw [State.readBytes]
      cases hr : s.memRead a with
      | error e => simp [hr] at h
      | ok b =>
        have hn : n ≤ (s.bytesAt (a + 1) m).length := by simpa [hr] using h
        simp [ih hn]

/-- R60, R80: when the bytes at the pc decode to an instruction, it is the one the step fetches. -/
theorem State.fetch_of_decode {s : State} {i : Instr} {rest : List Byte}
    (h : decode s.cfg (s.bytesAt s.pc 3) = .ok (i, rest)) : s.fetch = .ok i := by
  obtain ⟨op, tail, row, hbytes, hrow, hlen, rfl, -⟩ := decode_ok h
  rw [State.bytesAt] at hbytes
  cases hr : s.memRead s.pc with
  | error e => simp [hr] at hbytes
  | ok b =>
    obtain ⟨rfl, rfl⟩ : b = op ∧ s.bytesAt (s.pc + 1) 2 = tail := by simpa [hr] using hbytes
    simp [State.fetch, hr, hrow, State.readBytes_of_le_bytesAt hlen]

/-- Settles O8: the reset event's state is the one written out, and a Halted core takes no step. -/
theorem resetEventLeaves : Obligations.ResetEventLeaves :=
  fun _ _ => ⟨rfl, step_of_halted⟩

/-- Settles O9: the pc is 0 and Equal is clear, so the first step fetches at 0, JEQ is not taken and JNE is. -/
theorem resetEntryAndFlags : Obligations.ResetEntryAndFlags := by
  intro s t regReset h
  cases h
  refine ⟨rfl, rfl, fun i rest hd => step_of_fetch_ok rfl (State.fetch_of_decode hd), fun r k hk => ?_⟩
  obtain rfl := operandReg_of_eq hk
  have hr : r.toNat ≤ 7 := by omega
  have hq : (Instr.jeq r).regsInRange = true := by simp [Instr.regsInRange_iff, Instr.regOperands, hr]
  have hn : (Instr.jne r).regsInRange = true := by simp [Instr.regsInRange_iff, Instr.regOperands, hr]
  exact ⟨exec_of_inRange _ hq, exec_of_inRange _ hn⟩

/-- Settles O10: the reset state is computed, and a reset event keeps only parameters and memory of the state before it. -/
theorem hostResetState : Obligations.HostResetState := by
  refine ⟨rfl, rfl, rfl, rfl, rfl, rfl, rfl, rfl, fun i => ?_, fun s hcfg hmem => ?_⟩
  · simp [State.reg, State.reset]
  · rw [State.onEvent, State.applyReset, hcfg, hmem, State.reset]

end Sys2Proof.Machine
end

/-! ## Memory: what is listed and what is read, and the operations -/

section
namespace Sys2Proof.Machine

/-- A read answers `MEM_FILL` or a listed byte. -/
theorem Memory.read_eq_fill_or_mem (m : Memory) (a : Nat) : m.read a = memFill ∨ (a, m.read a) ∈ m := by
  induction m with
  | nil => exact .inl rfl
  | cons c m ih =>
    obtain ⟨b, w⟩ := c
    rw [Memory.read]
    split_ifs with hab
    · exact .inr (hab ▸ List.mem_cons_self)
    · exact ih.imp_right (List.mem_cons_of_mem _)

theorem Memory.read_of_not_listed {m : Memory} {a : Nat} (h : ∀ v, (a, v) ∉ m) : m.read a = memFill :=
  (m.read_eq_fill_or_mem a).resolve_right (h _)

/-- In canonical memory the first entry of an address is its only one, so a read answers what is listed. -/
theorem Memory.read_of_mem {m : Memory} {a : Nat} {v : Byte} (hm : m.wf) (h : (a, v) ∈ m) : m.read a = v := by
  obtain ⟨hrising, -⟩ := hm
  induction hrising with
  | nil => cases h
  | @cons c m hlow _ ih =>
    rcases List.mem_cons.1 h with rfl | h
    · exact if_pos rfl
    · have hne : a ≠ c.1 := (hlow _ h).ne'
      exact (if_neg hne).trans (ih h)

/-- What canonical memory lists is what reads as another byte than `MEM_FILL`. -/
theorem Memory.mem_iff_read {m : Memory} (hm : m.wf) (c : Host.Cell) : c ∈ m ↔ m.read c.1 = c.2 ∧ c.2 ≠ memFill := by
  refine ⟨fun h => ⟨Memory.read_of_mem hm h, hm.2 c h⟩, fun ⟨hread, hne⟩ => ?_⟩
  have h := (m.read_eq_fill_or_mem c.1).resolve_left (hread ▸ hne)
  rwa [hread] at h

/-- A write in range writes the memory. -/
theorem State.memWrite_of_lt {s : State} {a : Nat} (v : Byte) (h : a < s.cfg.memSize) :
    s.memWrite a v = .ok { s with mem := s.mem.write a v } :=
  if_pos h

/-- A write out of range is OutOfRange. -/
theorem State.memWrite_of_le {s : State} {a : Nat} (v : Byte) (h : s.cfg.memSize ≤ a) :
    s.memWrite a v = .error (.outOfRange a) :=
  if_neg (Nat.not_lt.2 h)

/-- Settles O13: in range by whether the cell is listed, and out of range. -/
theorem memReadContract : Obligations.MemReadContract := by
  refine fun s a hm => ⟨fun v ha hv => ?_, fun ha hnone => ?_, State.memRead_of_le⟩
  · rw [State.memRead_of_lt ha, Memory.read_of_mem hm hv]
  · rw [State.memRead_of_lt ha, Memory.read_of_not_listed hnone, memFill]

/-- Settles O14: in range the memory written is `Memory.write`'s, out of range the error, and the frame of `exec`. -/
theorem memWriteContract : Obligations.MemWriteContract := by
  refine fun s a v hm => ⟨fun ha => ?_, State.memWrite_of_le v, fun i t h => (exec_mem_cfg h).1⟩
  exact ⟨s.mem.write a v, State.memWrite_of_lt v ha, Memory.write_wf a v hm, Memory.read_write_same a v hm,
    fun b hb => Memory.read_write_other a b v hm hb⟩

/-- Settles O15: what is read decides what is listed, and lists that rise are equal when they have the same entries. -/
theorem canonicalMemoryExtensional : Obligations.CanonicalMemoryExtensional := by
  intro m m' hm hm' hread
  have : Std.Asymm fun c d : Host.Cell => c.1 < d.1 := InvImage.asymm (r := (· < ·)) Prod.fst
  have hmem (c : Host.Cell) : c ∈ m ↔ c ∈ m' := by
    rw [Memory.mem_iff_read hm, Memory.mem_iff_read hm', hread]
  exact List.Pairwise.eq_of_mem_iff hm.1 hm'.1 hmem

end Sys2Proof.Machine
end

/-! ## The dispatcher table, the decoder and the encoder -/

section
namespace Sys2Proof

/-! ### The table in force -/

/-- R63: with distinct opcode bytes, the opcode of a row in force looks that row up. -/
theorem decodeOpcode_opcode {cfg : Config} {r : Row} (hd : cfg.opcodesDistinct) (hr : r.inForce cfg = true) :
    decodeOpcode cfg (cfg.opcode r) = some r := by
  cases h : decodeOpcode cfg (cfg.opcode r) with
  | none => exact absurd rfl (decodeOpcode_none.1 h r hr)
  | some r' =>
    obtain ⟨hr', hop⟩ := decodeOpcode_some h
    exact congrArg some (List.inj_on_of_nodup_map hd ((cfg.mem_rows r').2 hr') ((cfg.mem_rows r).2 hr) hop)

theorem decodeOpcode_ne_none_iff {cfg : Config} {b : Byte} :
    decodeOpcode cfg b ≠ none ↔ b ∈ cfg.rows.map cfg.opcode := by
  simp [decodeOpcode_none, Config.mem_rows]

/-- The 256 bytes, in the order in which `Obligations.DefaultOpcodeMap` counts them. -/
def allBytes : List Byte := (List.range 256).map (BitVec.ofNat 8)

theorem mem_allBytes (b : Byte) : b ∈ allBytes :=
  List.mem_map.2 ⟨b.toNat, List.mem_range.2 b.isLt, by simp⟩

theorem nodup_allBytes : allBytes.Nodup := by
  refine List.nodup_range.map_on fun m hm n hn h => ?_
  have h' := congrArg BitVec.toNat h
  simp only [List.mem_range, BitVec.toNat_ofNat] at hm hn h'
  omega

/-- R65: with distinct opcode bytes, every byte is the opcode of one row in force or is unknown. -/
theorem unknownBytes_length_add_rows_length {cfg : Config} (hd : cfg.opcodesDistinct) :
    ((List.range 256).filter fun n => decodeOpcode cfg (BitVec.ofNat 8 n) = none).length + cfg.rows.length = 256 := by
  have hknown : (allBytes.filter fun b => !decide (decodeOpcode cfg b = none)).Perm (cfg.rows.map cfg.opcode) :=
    (List.perm_ext_iff_of_nodup (nodup_allBytes.filter _) hd).2 fun b => by
      rw [List.mem_filter, ← decodeOpcode_ne_none_iff]
      simp [mem_allBytes]
  have hsplit := List.length_eq_length_filter_add (l := allBytes) fun b => decodeOpcode cfg b = none
  rw [hknown.length_eq, allBytes, List.filter_map] at hsplit
  simpa [Function.comp_def] using hsplit.symm

/-! ### Instructions and their operand bytes -/

@[simp] theorem Instr.operandBytes_length (i : Instr) : i.operandBytes.length = i.row.operandCount := by
  cases i <;> rfl

@[simp] theorem Instr.instr_operandBytes (i : Instr) : i.row.instr i.operandBytes = i := by
  cases i <;> rfl

/-- R61: a row uses every operand byte it has, in order. -/
theorem Row.operandBytes_instr {r : Row} {bs : List Byte} (h : bs.length = r.operandCount) :
    (r.instr bs).operandBytes = bs := by
  cases r with
  | hlt => exact (List.length_eq_zero_iff.1 h).symm
  | prn | jmp | jeq | jne =>
    obtain ⟨b, rfl⟩ := List.length_eq_one_iff.1 h
    rfl
  | ldi | mul | cmp | add | sub =>
    obtain ⟨b, c, rfl⟩ := List.length_eq_two.1 h
    rfl

/-! ### `decode`, by what the opcode looks up -/

theorem decode_of_unknown {cfg : Config} {op : Byte} (tail : List Byte) (h : decodeOpcode cfg op = none) :
    decode cfg (op :: tail) = .error (.unknownOpcode op) := by
  simp [decode, h]

theorem decode_of_row {cfg : Config} {op : Byte} {tail : List Byte} {row : Row} (h : decodeOpcode cfg op = some row)
    (hlen : row.operandCount ≤ tail.length) :
    decode cfg (op :: tail) = .ok (row.instr (tail.take row.operandCount), tail.drop row.operandCount) := by
  simp [decode, h, Nat.not_lt.2 hlen]

/-- Settles O1: the opcode looks up the instruction's row, and the row rebuilds the instruction from its operand bytes. -/
theorem encodeThenDecode : Obligations.EncodeThenDecode := by
  intro cfg i rest hd hr
  have hrow := decodeOpcode_opcode hd hr
  rw [encode, List.cons_append, decode_of_row hrow (by simp), ← i.operandBytes_length, List.take_left, List.drop_left,
    i.instr_operandBytes]

/-- Settles O2: what was read is an opcode and the operand bytes that the row uses, all of them. -/
theorem decodeThenEncode : Obligations.DecodeThenEncode := by
  intro cfg bytes rest i h
  obtain ⟨op, tail, row, rfl, hrow, hlen, rfl, rfl⟩ := decode_ok h
  obtain ⟨hforce, hop⟩ := decodeOpcode_some hrow
  rw [encode, Row.instr_row, Row.operandBytes_instr (List.length_take_of_le hlen), hop, List.cons_append,
    List.take_append_drop]
  exact ⟨rfl, hforce⟩

/-- Settles O3: an opcode in force looks its row up, and nothing else does. -/
theorem decodeIsTableLookup : Obligations.DecodeIsTableLookup :=
  fun _ _ hd => ⟨fun _ => ⟨decodeOpcode_some, fun ⟨hr, hop⟩ => hop ▸ decodeOpcode_opcode hd hr⟩, decodeOpcode_none⟩

/-- Settles O4: `decode` by what the opcode looks up. -/
theorem lengthFromOpcode : Obligations.LengthFromOpcode := by
  refine fun cfg op tail => ⟨fun row hrow hlen => ⟨_, _, decode_of_row hrow hlen, ?_⟩, decode_of_unknown tail⟩
  rw [List.length_cons, List.length_drop]
  omega

/-- Settles O5: the decoder is run on each word. -/
theorem specWordsDecode : Obligations.SpecWordsDecode :=
  ⟨rfl, rfl, rfl, rfl, rfl, rfl, rfl, rfl, rfl, rfl, rfl, rfl, rfl, rfl⟩

/-- Settles O6: the bytes that are no opcode are counted as the complement of the distinct opcodes. -/
theorem defaultOpcodeMap : Obligations.DefaultOpcodeMap := by
  have hdef : Config.default.opcodesDistinct := by decide
  have hall : Config.allRows.opcodesDistinct := by decide
  have hrows8 : Config.default.rows.length = 8 := rfl
  have hrows10 : Config.allRows.rows.length = 10 := rfl
  have hcount8 := unknownBytes_length_add_rows_length hdef
  have hcount10 := unknownBytes_length_add_rows_length hall
  exact ⟨⟨hdef, by decide⟩, ⟨hall, by decide⟩, hrows8, hrows10, by omega, by omega⟩

end Sys2Proof
end

/-! ## The program-image text -/

section
namespace Sys2Proof.Machine

/-- Whitespace around a text that has none in it is stripped. -/
theorem stripSpace_padded {before s after : List Char} (hspace : ∀ c ∈ before ++ after, c.isWhitespace = true)
    (hs : ∀ c ∈ s, c.isWhitespace = false) : stripSpace (before ++ s ++ after) = s := by
  obtain ⟨hbefore, hafter⟩ := List.forall_mem_append.1 hspace
  cases s with
  | nil => simp [stripSpace, List.dropWhile_eq_nil_iff.2 hspace]
  | cons c s =>
    have hstart : ¬ c.isWhitespace = true := by simp [hs c]
    have hend : (c :: s).reverse.dropWhile Char.isWhitespace = (c :: s).reverse :=
      List.dropWhile_eq_self_iff.2 fun hl => by rw [hs _ (List.mem_reverse.1 (List.getElem_mem hl))]; decide
    have hafter' : ∀ c ∈ after.reverse, c.isWhitespace = true := fun c hc => hafter c (List.mem_reverse.1 hc)
    rw [stripSpace, List.append_assoc, List.dropWhile_append_of_pos hbefore, List.cons_append,
      List.dropWhile_cons_of_neg hstart, ← List.cons_append, List.reverse_append, List.dropWhile_append_of_pos hafter',
      hend, List.reverse_reverse]

/-- The comment of a line is cut off, where there is one. -/
theorem takeWhile_ne_hash {text : List Char} (h : '#' ∉ text) (comment : List Char) :
    text.takeWhile (fun c => c ≠ '#') = text ∧ (text ++ '#' :: comment).takeWhile (fun c => c ≠ '#') = text := by
  have hne : ∀ c ∈ text, decide (c ≠ '#') = true := fun c hc => decide_eq_true (ne_of_mem_of_not_mem hc h)
  refine ⟨List.takeWhile_eq_self_iff.2 hne, ?_⟩
  rw [List.takeWhile_append_of_pos hne, List.takeWhile_cons_of_neg (by decide), List.append_nil]

theorem hash_not_mem_of_space {text : List Char} (h : ∀ c ∈ text, c.isWhitespace = true) : '#' ∉ text :=
  fun hmem => absurd (h _ hmem) (by decide)

/-! ### The literal of a byte -/

theorem mem_imageLineOf {b : Byte} {c : Char} (h : c ∈ imageLineOf b) : c = '0' ∨ c = '1' := by
  obtain ⟨i, -, rfl⟩ := List.mem_map.1 h
  split_ifs
  · exact .inr rfl
  · exact .inl rfl

theorem not_isWhitespace_of_mem_imageLineOf {b : Byte} {c : Char} (h : c ∈ imageLineOf b) : c.isWhitespace = false := by
  rcases mem_imageLineOf h with rfl | rfl <;> rfl

theorem hash_not_mem_imageLineOf (b : Byte) : '#' ∉ imageLineOf b :=
  fun h => absurd (mem_imageLineOf h) (by decide)

/-- R70: the first digit is the most significant bit. -/
theorem binaryValue_imageLineOf (b : Byte) : binaryValue (imageLineOf b) = b.toNat := by
  have digit (i : Nat) : (if (if b.getLsbD i then '1' else '0') = '1' then 1 else 0) = b.toNat / 2 ^ i % 2 := by
    rw [← Nat.toNat_testBit, BitVec.testBit_toNat]
    cases b.getLsbD i <;> rfl
  have := b.isLt
  simp only [binaryValue, imageLineOf, List.map_cons, List.map_nil, List.foldl_cons, List.foldl_nil, digit]
  omega

/-! ### One line -/

theorem parseImageLine_of_literal {line : List Char} {b : Byte}
    (h : stripSpace (line.takeWhile fun c => c ≠ '#') = imageLineOf b) : parseImageLine line = .byte b := by
  have hdigits : imageLineOf b ≠ [] ∧ (imageLineOf b).all (fun c => c = '0' || c = '1') = true :=
    ⟨List.cons_ne_nil _ _, List.all_eq_true.2 fun c hc => by simpa using mem_imageLineOf hc⟩
  have hlen : (imageLineOf b).length = 8 := rfl
  simp only [parseImageLine, h, if_pos hdigits, if_pos hlen, binaryValue_imageLineOf, BitVec.ofNat_toNat,
    BitVec.setWidth_eq]

theorem parseImageLine_of_blank {line : List Char} (h : stripSpace (line.takeWhile fun c => c ≠ '#') = []) :
    parseImageLine line = .skip := by
  simp only [parseImageLine, h, ne_eq, not_true_eq_false, false_and, if_false]

/-- R70: whitespace around a literal and a comment after it change nothing. -/
theorem parseImageLine_padded (b : Byte) {before after : List Char} (comment : List Char)
    (hspace : ∀ c ∈ before ++ after, c.isWhitespace = true) :
    parseImageLine (before ++ imageLineOf b ++ after) = .byte b ∧
    parseImageLine (before ++ imageLineOf b ++ after ++ '#' :: comment) = .byte b := by
  have hhash : '#' ∉ before ++ imageLineOf b ++ after := by
    have houter := hash_not_mem_of_space hspace
    simp only [List.mem_append, not_or] at houter ⊢
    obtain ⟨hbefore, hafter⟩ := houter
    exact ⟨⟨hbefore, hash_not_mem_imageLineOf b⟩, hafter⟩
  have hstrip := stripSpace_padded hspace fun c => not_isWhitespace_of_mem_imageLineOf (b := b)
  obtain ⟨hbare, hcomment⟩ := takeWhile_ne_hash hhash comment
  exact ⟨parseImageLine_of_literal (by rw [hbare, hstrip]), parseImageLine_of_literal (by rw [hcomment, hstrip])⟩

theorem parseImageLine_space {before : List Char} (comment : List Char)
    (hspace : ∀ c ∈ before, c.isWhitespace = true) : parseImageLine (before ++ '#' :: comment) = .skip := by
  have hstrip : stripSpace before = [] := by
    simpa using stripSpace_padded (before := before) (s := []) (after := []) (by simpa using hspace) (by simp)
  obtain ⟨-, hcut⟩ := takeWhile_ne_hash (hash_not_mem_of_space hspace) comment
  exact parseImageLine_of_blank (by rw [hcut, hstrip])

theorem parseImageLine_imageLineOf (b : Byte) : parseImageLine (imageLineOf b) = .byte b := by
  simpa using (parseImageLine_padded b (before := []) (after := []) [] (by simp)).1

/-- Settles O7: the text by induction on the image, one literal a line; a line by what is left of it without comment and
whitespace. -/
theorem imageTextDenotesBytes : Obligations.ImageTextDenotesBytes := by
  refine ⟨fun image => ?_, fun b before after comment hspace => ?_⟩
  · induction image with
    | nil => rfl
    | cons b image ih => simp [parseImage, parseImageLine_imageLineOf, ih]
  · obtain ⟨hbare, hcomment⟩ := parseImageLine_padded b comment hspace
    exact ⟨hbare, hcomment, parseImageLine_space comment (List.forall_mem_append.1 hspace).1⟩

end Sys2Proof.Machine
end

/-! ## Boot: the image in memory -/

section
namespace Sys2Proof.Machine
open Sys2Proof.Claims

/-- The memory after bytes are written in order from an address on. -/
def Memory.writeFrom (m : Memory) (a : Nat) : List Byte → Memory
  | [] => m
  | b :: bs => (m.write a b).writeFrom (a + 1) bs

/-- R42, R158: bytes that all fit are written. -/
theorem State.load_of_le {s : State} {a : Nat} {bs : List Byte} (h : a + bs.length ≤ s.cfg.memSize) :
    s.load a bs = .ok { s with mem := s.mem.writeFrom a bs } := by
  induction bs generalizing s a with
  | nil => rfl
  | cons b bs ih =>
    rw [List.length_cons] at h
    have ha : a < s.cfg.memSize := by omega
    rw [State.load, State.memWrite_of_lt b ha]
    exact ih (show a + 1 + bs.length ≤ s.cfg.memSize by omega)

/-- R158: bytes that do not all fit are an error at the first address past memory. -/
theorem State.load_of_lt {s : State} {a : Nat} {bs : List Byte} (ha : a ≤ s.cfg.memSize)
    (h : s.cfg.memSize < a + bs.length) : s.load a bs = .error (.outOfRange s.cfg.memSize) := by
  induction bs generalizing s a with
  | nil => exact absurd h (Nat.not_lt.2 ha)
  | cons b bs ih =>
    rw [List.length_cons] at h
    rw [State.load]
    rcases Nat.lt_or_eq_of_le ha with hlt | rfl
    · rw [State.memWrite_of_lt b hlt]
      exact ih hlt (show s.cfg.memSize < a + 1 + bs.length by omega)
    · rw [State.memWrite_of_le b le_rfl]

theorem Memory.read_writeFrom_outside {m : Memory} {a c : Nat} {bs : List Byte} (hm : m.wf)
    (hc : c < a ∨ a + bs.length ≤ c) : (m.writeFrom a bs).read c = m.read c := by
  induction bs generalizing m a with
  | nil => rfl
  | cons b bs ih =>
    rw [List.length_cons] at hc
    rw [Memory.writeFrom, ih (Memory.write_wf a b hm) (by omega), Memory.read_write_other a c b hm (by omega)]

theorem Memory.read_writeFrom_inside {m : Memory} {a k : Nat} {bs : List Byte} (hm : m.wf) (hk : k < bs.length) :
    (m.writeFrom a bs).read (a + k) = bs[k] := by
  induction bs generalizing m a k with
  | nil => cases hk
  | cons b bs ih =>
    have hw := Memory.write_wf a b hm
    rw [Memory.writeFrom]
    cases k with
    | zero => rw [Memory.read_writeFrom_outside hw (by omega), Nat.add_zero, Memory.read_write_same a b hm]; rfl
    | succ k => rw [show a + (k + 1) = a + 1 + k by omega, ih hw (by simpa using hk)]; rfl

/-! ### Booting -/

/-- R144: an opcode byte of no row in force stops a Running core, and the pc moves past it. -/
theorem step_of_unknown {s : State} {b : Byte} (hrun : s.run = .running) (hread : s.memRead s.pc = .ok b)
    (hb : decodeOpcode s.cfg b = none) : step s = .next (unknownInstruction s b) :=
  step_of_stepError (e := .unknownInstruction b s.pc) hrun (.inl (by simp [State.fetch, hread, hb]))

/-- Settles O12: the load by whether the image fits; after the empty image the first fetch reads `MEM_FILL`. -/
theorem bootPlacesImage : Obligations.BootPlacesImage := by
  refine fun cfg regReset image => ⟨fun hfit => ?_, fun hlarge => ?_, fun s hboot hsize hnone => ?_⟩
  · have hempty : Memory.wf [] := ⟨.nil, fun _ h => nomatch h⟩
    have hload : State.boot cfg regReset image = .ok (State.afterReset cfg (Memory.writeFrom [] 0 image) regReset) :=
      State.load_of_le (by simpa using hfit)
    refine ⟨_, hload, fun a ha => ?_, fun a ha hsize => ?_, State.load_wf hload hempty, rfl⟩
    · rw [State.memRead_of_lt (Nat.lt_of_lt_of_le ha hfit)]
      simpa using Memory.read_writeFrom_inside (a := 0) hempty ha
    · rw [State.memRead_of_lt hsize]
      exact congrArg Except.ok (Memory.read_writeFrom_outside hempty (.inr (by omega)))
  · exact State.load_of_lt (Nat.zero_le _) (by simpa using hlarge)
  · cases hboot
    exact step_of_unknown rfl (State.memRead_of_lt hsize) hnone

end Sys2Proof.Machine
end

/-! ## ADD, SUB and the ALU selector, and the errors rows have in common -/

section
namespace Sys2Proof.Machine
open Sys2Proof.Claims

/-- R81, R83: every row of the table stops with OutOfRange at the first of its bytes that is past memory. -/
theorem fetchOutOfRange (row : Row) : FetchOutOfRange row := by
  refine fun s hrun => ⟨fun hpc => ?_, fun k hread hrow hk hcount hout hin => ?_⟩
  · exact step_of_stepError (e := .outOfRange s.pc) hrun (.inl (by simp [State.fetch, State.memRead_of_le hpc]))
  · obtain ⟨j, rfl⟩ : ∃ j, k = 1 + j := ⟨k - 1, by omega⟩
    rw [← Nat.add_assoc] at hout ⊢
    have hbytes : s.readBytes (s.pc + 1) row.operandCount = .error (.outOfRange (s.pc + 1 + j)) :=
      State.readBytes_of_lt (by omega) hout fun l hl => by
        have := hin (1 + l) (by omega)
        omega
    have hfetch : s.fetch = .error (.outOfRange (s.pc + 1 + j)) := by simp [State.fetch, hread, hrow, hbytes]
    exact step_of_stepError hrun (.inl hfetch)

/-- R84: an instruction whose register operands are its two operand bytes reports the first bad one. -/
theorem twoRegistersChecked {f : Byte → Byte → Instr} (hf : ∀ ra rb, (f ra rb).regOperands = [ra, rb]) :
    TwoRegistersChecked f := by
  refine fun s ra rb => ⟨fun ha => ?_, fun ha hb => ?_⟩
  · exact exec_of_firstBadReg s (by simp [Instr.firstBadReg, hf, ha])
  · exact exec_of_firstBadReg s (by simp [Instr.firstBadReg, hf, hb, Nat.not_le.2 (Nat.lt_succ_of_le ha)])

/-- R73: a row that is in force exactly under `EXT_ADDSUB` exists only there. -/
theorem onlyWithExtension {row : Row} (hrow : ∀ cfg, row.inForce cfg = cfg.extAddSub) : OnlyWithExtension row := by
  refine ⟨fun cfg bytes rest i h hi => ?_, fun s hrun _ hread hother => ?_⟩
  · obtain ⟨-, hforce⟩ := decodeThenEncode cfg bytes rest i h
    rwa [hi, hrow] at hforce
  · exact step_of_unknown hrun hread (decodeOpcode_none.2 hother)

theorem u8_eq_ofNat {v : Int} {n : Nat} (h : v % 256 = n) : u8 v = BitVec.ofNat 8 n := by
  apply BitVec.eq_of_toNat_eq
  have := u8_toNat_emod v
  rw [BitVec.toNat_ofNat]
  omega

/-- R111 to R113: with both operands in 0..7, an arithmetic row stores the result modulo 256 of the values held before. -/
theorem exec_of_arith {f : Byte → Byte → Instr} {op : Int → Int → Int} {row : Row}
    (hf : ∀ ra rb, (f ra rb).regOperands = [ra, rb])
    (hop : ∀ s ra rb, (f ra rb).complete s = s.arith op (operandReg ra) (operandReg rb) row)
    {s : State} {ra rb : Byte} {i j : Fin 8} {n : Nat} (hi : ra.toNat = i.val) (hj : rb.toNat = j.val)
    (hn : op s.x[i].toNat s.x[j].toNat % 256 = n) :
    exec (f ra rb) s = .next { s with x := s.x.set i (BitVec.ofNat 8 n), pc := s.pc + row.width } := by
  have hr : (f ra rb).regsInRange = true := by
    simp only [Instr.regsInRange_iff, hf, List.forall_mem_cons]
    exact ⟨by omega, by omega, by simp⟩
  rw [exec_of_inRange s hr, hop, operandReg_of_eq hi, operandReg_of_eq hj, ← u8_eq_ofNat hn]
  rfl

/-- Settles O25: the arithmetic rule with the sum, and the errors of a row with two register operands under `EXT_ADDSUB`. -/
theorem addAdds : Obligations.AddAdds := by
  have hops : ∀ ra rb, (Instr.add ra rb).regOperands = [ra, rb] := fun _ _ => rfl
  refine ⟨fun s ra rb i j hi hj => exec_of_arith hops (fun _ _ _ => rfl) hi hj ?_, twoRegistersChecked hops,
    fetchOutOfRange .add, onlyWithExtension fun _ => rfl⟩
  omega

/-- Settles O26: the arithmetic rule with the difference, and the errors of a row with two register operands under
`EXT_ADDSUB`. -/
theorem subSubtracts : Obligations.SubSubtracts := by
  have hops : ∀ ra rb, (Instr.sub ra rb).regOperands = [ra, rb] := fun _ _ => rfl
  refine ⟨fun s ra rb i j hi hj => exec_of_arith hops (fun _ _ _ => rfl) hi hj ?_, twoRegistersChecked hops,
    fetchOutOfRange .sub, onlyWithExtension fun _ => rfl⟩
  have := s.x[j].isLt
  omega

/-- Settles O36: the four selectors and the four opcodes are evaluated; any other selector fails all four tests. -/
theorem aluSelectorBinding : Obligations.AluSelectorBinding := by
  refine ⟨rfl, rfl, rfl, rfl, fun k hk => ?_, rfl, rfl, rfl, rfl⟩
  simp only [List.mem_cons, List.not_mem_nil, or_false, not_or] at hk
  obtain ⟨h0, h1, h2, h7⟩ := hk
  rw [AluOp.ofSelector, if_neg h0, if_neg h1, if_neg h2, if_neg h7]

end Sys2Proof.Machine
end

/-! ## The cycle: what a step runs, where OutOfRange comes from, Halted, and that every step answers -/

section
namespace Sys2Proof.Machine
open Sys2Proof.Claims

/-! ### Answering -/

theorem exec_answers (i : Instr) (s : State) : ∃ t, exec i s = .next t := by
  cases hb : i.firstBadReg with
  | none => exact ⟨_, exec_of_inRange s (i.firstBadReg_none_iff.1 hb)⟩
  | some r => exact ⟨_, exec_of_firstBadReg s hb⟩

theorem step_answers (s : State) : ∃ t, step s = .next t := by
  cases hrun : s.run with
  | halted => exact ⟨s, step_of_halted hrun⟩
  | running =>
    cases hf : s.fetch with
    | error e => exact ⟨_, step_of_stepError hrun (.inl hf)⟩
    | ok i => exact step_of_fetch_ok hrun hf ▸ exec_answers i s

theorem run_answers (k : Nat) (s : State) : ∃ t, Sys2Proof.core.run k s = .next t := by
  induction k generalizing s with
  | zero => exact ⟨s, core_run_zero.2 rfl⟩
  | succ k ih =>
    obtain ⟨u, hu⟩ := step_answers s
    obtain ⟨t, ht⟩ := ih u
    exact ⟨t, core_run_succ.2 ⟨u, hu, ht⟩⟩

/-! ### Where an error context comes from -/

/-- An error context found after completion was there before: HLT clears it, the others leave it. -/
theorem complete_errinfo_some {i : Instr} {s : State} {e : ErrInfo} (h : (i.complete s).errinfo = some e) :
    s.errinfo = some e := by
  by_cases hi : i.row = .hlt
  · cases Instr.eq_hlt_of_row hi
    cases h
  · obtain ⟨-, -, herr⟩ := Instr.complete_ending s hi
    rw [← herr, h]

/-- R85: the only error the execute phase raises is InvalidRegister. -/
theorem exec_errinfo_some {i : Instr} {s t : State} {e : ErrInfo} (h : exec i s = .next t) (he : t.errinfo = some e) :
    s.errinfo = some e ∨ ∃ r, e = .invalidRegister r s.pc := by
  rcases exec_outcome h with ⟨-, rfl⟩ | ⟨r, -, rfl⟩
  · exact .inl (complete_errinfo_some he)
  · exact .inr ⟨r, (Option.some.inj he).symm⟩

/-! ### The obligations -/

/-- Settles O42: the opcode clause of `fetchOutOfRange`, which says the same for every row. -/
theorem opcodeFetchOutOfRange : Obligations.OpcodeFetchOutOfRange :=
  fun s hrun => (fetchOutOfRange .hlt s hrun).1

/-- Settles O44: both fetch errors from the rule of a row's bytes, the width from what a successful fetch read, and the execute
phase raises nothing but InvalidRegister. -/
theorem outOfRangeOnlyInFetch : Obligations.OutOfRangeOnlyInFetch := by
  refine ⟨opcodeFetchOutOfRange, fun s row k hrun hpc hrow hk hcount hout hin => ?_, fun s i hf => ?_,
    fun i s t a h ht => ?_⟩
  · obtain ⟨-, hop⟩ := decodeOpcode_some hrow
    rw [← hop] at hrow
    exact (fetchOutOfRange row s hrun).2 k (hop ▸ State.memRead_of_lt hpc) hrow hk hcount hout hin
  · obtain ⟨row, -, hfit, rfl⟩ := State.fetch_ok hf
    rwa [Row.instr_row]
  · rcases exec_errinfo_some h ht with hs | ⟨r, hr⟩
    · exact hs
    · cases hr

/-- Settles O48: by induction on the number of steps, each of which answers the same state. -/
theorem haltedIsAbsorbing : Obligations.HaltedIsAbsorbing := by
  intro k s hrun
  induction k with
  | zero => exact core_run_zero.2 rfl
  | succ k ih => exact core_run_succ.2 ⟨s, step_of_halted hrun, ih⟩

/-- Settles O49: a step by whether it is Halted, fails to fetch or executes, and a run by induction on its length. -/
theorem everyStepAnswers : Obligations.EveryStepAnswers :=
  ⟨step_answers, run_answers⟩

/-- Settles O41: what the bytes at the pc decode to is what the step fetches. -/
theorem stepRunsDecodedInstruction : Obligations.StepRunsDecodedInstruction :=
  fun _ _ _ hrun hd => step_of_fetch_ok hrun (State.fetch_of_decode hd)

end Sys2Proof.Machine
end

/-! ## HLT, LDI and PRN, and the rows with one register operand -/

section
namespace Sys2Proof.Machine
open Sys2Proof.Claims

/-- R84: an instruction whose one register operand is `r` reports a bad `r`. -/
theorem oneRegisterChecked {f : Byte → Instr} (hf : ∀ r, (f r).regOperands = [r]) : OneRegisterChecked f :=
  fun s r hr => exec_of_firstBadReg s (by simp [Instr.firstBadReg, hf, hr])

/-- An instruction whose one register operand names a register completes. -/
theorem exec_of_oneRegister {i : Instr} {r : Byte} (hi : i.regOperands = [r]) (s : State) {k : Fin 8} (hk : r.toNat = k.val) :
    exec i s = .next (i.complete s) := by
  refine exec_of_inRange s (i.regsInRange_iff.2 fun q hq => ?_)
  obtain rfl : q = r := by simpa [hi] using hq
  omega

/-- Settles O20: HLT has no operand to check and so completes; its fetch errors are those of every row. -/
theorem hltHaltsCleanly : Obligations.HltHaltsCleanly :=
  ⟨fun s => exec_of_inRange (i := .hlt) s rfl, fetchOutOfRange .hlt⟩

/-- Settles O21: LDI completes with a byte that the write modulo 256 leaves as it is, and its errors are those of a row with one
register operand. -/
theorem ldiLoadsImmediate : Obligations.LdiLoadsImmediate := by
  refine ⟨fun s r value i hi => ?_, fun value => oneRegisterChecked fun _ => rfl, fetchOutOfRange .ldi⟩
  rw [exec_of_oneRegister rfl s hi, Instr.complete, operandReg_of_eq hi, State.writeReg, Regs.put, u8_toNat]
  rfl

/-- Settles O22: PRN completes with the byte of the register named, and its errors are those of a row with one register
operand. -/
theorem prnEmitsRegister : Obligations.PrnEmitsRegister := by
  refine ⟨fun s r i hi => ?_, oneRegisterChecked fun _ => rfl, fetchOutOfRange .prn⟩
  rw [exec_of_oneRegister rfl s hi, Instr.complete, operandReg_of_eq hi]
  rfl

end Sys2Proof.Machine
end

/-! ## The ALU: arithmetic modulo 256, Compare, and MUL and CMP as instructions -/

section
namespace Sys2Proof.Machine
open Sys2Proof.Claims

/-! ### Arithmetic modulo 256 -/

theorem u8_eq_u8_iff {v w : Int} : u8 v = u8 w ↔ v ≡ w [ZMOD 256] := by
  rw [← BitVec.toNat_inj, ← Int.ofNat_inj, u8_toNat_emod, u8_toNat_emod, Int.ModEq]

/-- R6: the two readings of a byte differ by 0 or 256. -/
theorem s8_modEq_toNat (b : Byte) : s8 b ≡ b.toNat [ZMOD 256] := by
  rw [Int.ModEq, s8]
  split_ifs <;> omega

theorem s8_eq_toInt (b : Byte) : s8 b = b.toInt := by
  rw [s8, BitVec.toInt_eq_toNat_cond]
  split_ifs <;> omega

theorem Regs.put_same_toNat (x : Regs) (i : Fin 8) (v : Int) : ((Regs.put x i v)[i].toNat : Int) = v % 256 := by
  rw [← u8_toNat_emod]
  simp [Regs.put]

theorem Regs.put_other (x : Regs) {i j : Fin 8} (v : Int) (h : j ≠ i) : (Regs.put x i v)[j] = x[j] := by
  simp [Regs.put, Fin.val_ne_of_ne h.symm]

theorem Regs.put_put_same (x : Regs) (i : Fin 8) (v w : Int) : Regs.put (Regs.put x i v) i w = Regs.put x i w := by
  simp [Regs.put]

/-- R14: putting a value congruent to the one held changes nothing. -/
theorem Regs.put_of_modEq {x : Regs} {i : Fin 8} {v : Int} (h : v ≡ x[i].toNat [ZMOD 256]) : Regs.put x i v = x := by
  rw [Regs.put, u8_eq_u8_iff.2 h, u8_toNat]
  exact Vector.set_getElem_self i.isLt

/-- Settles O33: the three operations put their integer result into `x[ra]`, and a put is modulo 256. -/
theorem aluArithmeticWraps : Obligations.AluArithmeticWraps := by
  intro order ra rb x fl
  have wraps (v : Int) : ((Regs.put x ra v)[ra].toNat : Int) = v % 256 ∧ ∀ j : Fin 8, j ≠ ra → (Regs.put x ra v)[j] = x[j] :=
    ⟨Regs.put_same_toNat x ra v, fun _ => Regs.put_other x v⟩
  exact ⟨⟨_, rfl, wraps _⟩, ⟨_, rfl, wraps _⟩, ⟨_, rfl, wraps _⟩⟩

/-- Settles O37: the two readings of a byte are congruent modulo 256, and the stored difference plus `x[rb]`, which stands, is
congruent to what `x[ra]` held. -/
theorem arithmeticSignAgnostic : Obligations.ArithmeticSignAgnostic := by
  refine ⟨fun a b => ?_, fun order ra rb x y z fl hne hsub hadd => ?_⟩
  · have ha := s8_modEq_toNat a
    have hb := s8_modEq_toNat b
    exact ⟨u8_eq_u8_iff.2 (ha.add hb), u8_eq_u8_iff.2 (ha.sub hb), u8_eq_u8_iff.2 (ha.mul hb)⟩
  · cases hsub
    cases hadd
    rw [Regs.put_put_same, Regs.put_same_toNat, Regs.put_other x _ hne.symm]
    refine Regs.put_of_modEq ?_
    rw [Int.ModEq, Int.emod_add_emod, sub_add_cancel]

/-- Settles O23: the arithmetic rule with the product, and the errors of a row with two register operands. -/
theorem mulMultiplies : Obligations.MulMultiplies := by
  have hops : ∀ ra rb, (Instr.mul ra rb).regOperands = [ra, rb] := fun _ _ => rfl
  refine ⟨fun s ra rb i j hi hj => exec_of_arith hops (fun _ _ _ => rfl) hi hj ?_, twoRegistersChecked hops,
    fetchOutOfRange .mul⟩
  push_cast
  rfl

/-! ### Compare -/

theorem cmpKey_eq_compareKey (order : CmpOrder) (v : Byte) : cmpKey order v = compareKey order v := by
  cases order with
  | unsigned => rfl
  | twosComplement => exact s8_eq_toInt v

/-- R121: the flags Compare sets are the three comparisons of the keys, by trichotomy. -/
theorem cmpFlags_eq_comparison (order : CmpOrder) (va vb : Byte) : cmpFlags order va vb = comparison order va vb := by
  rw [cmpFlags, comparison, cmpKey_eq_compareKey, cmpKey_eq_compareKey]
  rcases lt_trichotomy (compareKey order va) (compareKey order vb) with h | h | h
  · simp [h, h.ne, h.not_gt]
  · simp [h]
  · simp [h, h.ne', h.not_gt]

theorem comparison_count (order : CmpOrder) (va vb : Byte) : (comparison order va vb).count = 1 :=
  cmpFlags_eq_comparison order va vb ▸ cmpFlags_count order va vb

theorem comparison_e_iff (order : CmpOrder) (va vb : Byte) : (comparison order va vb).e = true ↔ va = vb := by
  rw [← cmpFlags_eq_comparison, cmpFlags_e, decide_eq_true_iff]

/-- Settles O34: the flags are the comparisons of the keys, and Equal is equality of the bytes. -/
theorem aluCompareSetsOneFlag : Obligations.AluCompareSetsOneFlag := by
  intro order ra rb x fl
  have he := comparison_e_iff order x[ra] x[rb]
  refine ⟨comparison order x[ra] x[rb], ?_, comparison_count _ _ _, decide_eq_true_iff, decide_eq_true_iff,
    decide_eq_true_iff, he, fun h => he.2 (by rw [h])⟩
  rw [← cmpFlags_eq_comparison]
  rfl

/-- Settles O35: the orders agree when they order the keys alike; a two's-complement key is 256 below the byte's value exactly
from 128 on. -/
theorem compareOrdersAgree : Obligations.CompareOrdersAgree := by
  refine fun va vb => ⟨?_, by rw [cmpFlags_e, cmpFlags_e]⟩
  simp only [cmpFlags_eq_comparison, comparison, Flags.mk.injEq, decide_eq_decide, ← cmpKey_eq_compareKey, cmpKey, s8]
  split_ifs <;> omega

/-- An instruction whose register operands are two bytes that name registers completes. -/
theorem exec_of_twoRegisters {i : Instr} {ra rb : Byte} (hi : i.regOperands = [ra, rb]) (s : State) {k l : Fin 8}
    (hk : ra.toNat = k.val) (hl : rb.toNat = l.val) : exec i s = .next (i.complete s) := by
  refine exec_of_inRange s (i.regsInRange_iff.2 ?_)
  simp only [hi, List.forall_mem_cons]
  exact ⟨by omega, by omega, by simp⟩

/-- Settles O24: CMP completes with the flags of the comparison, and its errors are those of a row with two register operands. -/
theorem cmpComparesValues : Obligations.CmpComparesValues := by
  refine ⟨fun s ra rb i j hi hj => ⟨?_, comparison_count _ _ _⟩, twoRegistersChecked fun _ _ => rfl, fetchOutOfRange .cmp⟩
  rw [exec_of_twoRegisters rfl s hi hj, Instr.complete, operandReg_of_eq hi, operandReg_of_eq hj, cmpFlags_eq_comparison]
  rfl

/-! ### UnsupportedOperation -/

/-- R81 to R83: fetch and decode fail with OutOfRange or UnknownInstruction only. -/
theorem fetch_ne_unsupportedOperation (s : State) (k : BitVec 4) : s.fetch ≠ .error (.unsupportedOperation k) := by
  intro h
  rcases State.fetch_error h with ⟨-, he⟩ | ⟨-, -, he⟩ | ⟨-, row, n, -, -, -, -, he⟩ <;> cases he

/-- Settles O51: of what a step can do, a Halted core keeps its error context, and neither the fetch nor the execute phase raises
UnsupportedOperation. -/
theorem unsupportedOperationUnreachable : Obligations.UnsupportedOperationUnreachable := by
  refine ⟨fun _ _ _ _ _ _ => rfl, fun s t k h ht => ?_⟩
  rcases step_cases h with ⟨-, rfl⟩ | ⟨-, e, hf, rfl⟩ | ⟨-, i, -, hx⟩
  · exact ht
  · cases ht
    exact absurd hf (fetch_ne_unsupportedOperation s k)
  · rcases exec_errinfo_some hx ht with hs | ⟨r, hr⟩
    · exact hs
    · cases hr

end Sys2Proof.Machine
end

/-! ## JMP, JEQ and JNE, and the step after a taken jump -/

section
namespace Sys2Proof.Machine
open Sys2Proof.Claims

section
variable (s : State) {r : Byte} {k : Fin 8} (hk : r.toNat = k.val)
include hk

/-- R130. -/
theorem exec_jmp : exec (.jmp r) s = .next (s.setPc (s.reg k).toNat) := by
  rw [exec_of_oneRegister rfl s hk, Instr.complete, operandReg_of_eq hk]

/-- R131. -/
theorem exec_jeq : exec (.jeq r) s = .next (s.setPc (if s.fl.e then (s.reg k).toNat else s.pc + 2)) := by
  rw [exec_of_oneRegister rfl s hk, Instr.complete, operandReg_of_eq hk]

/-- R132. -/
theorem exec_jne : exec (.jne r) s = .next (s.setPc (if s.fl.e then s.pc + 2 else (s.reg k).toNat)) := by
  rw [exec_of_oneRegister rfl s hk, Instr.complete, operandReg_of_eq hk]

/-- R133: whichever jump it is, a taken one only sets the pc, to the register's value. -/
theorem exec_of_takenJump {i : Instr} (hi : TakenJump s i r) : exec i s = .next (s.setPc (s.reg k).toNat) := by
  rcases hi with rfl | ⟨rfl, he⟩ | ⟨rfl, he⟩
  · exact exec_jmp s hk
  · rw [exec_jeq s hk, he, if_pos rfl]
  · rw [exec_jne s hk, he, if_neg Bool.false_ne_true]

end

/-- Settles O27: JMP is always taken, and its errors are those of a row with one register operand. -/
theorem jmpJumps : Obligations.JmpJumps :=
  ⟨fun s _ _ hk => exec_of_takenJump s hk (.inl rfl), oneRegisterChecked fun _ => rfl, fetchOutOfRange .jmp⟩

/-- Settles O28: with Equal set JEQ is a taken jump, with Equal clear it is the other branch of its rule; its errors are those of
a row with one register operand. -/
theorem jeqJumpsOnEqual : Obligations.JeqJumpsOnEqual := by
  refine ⟨fun s r k hk => ⟨fun he => ?_, fun he => ?_⟩, oneRegisterChecked fun _ => rfl, fetchOutOfRange .jeq⟩
  · exact exec_of_takenJump s hk (.inr (.inl ⟨rfl, he⟩))
  · rw [exec_jeq s hk, he, if_neg Bool.false_ne_true, State.setPc]

/-- Settles O29: with Equal clear JNE is a taken jump, with Equal set it is the other branch of its rule; its errors are those of
a row with one register operand. -/
theorem jneJumpsOnEqualClear : Obligations.JneJumpsOnEqualClear := by
  refine ⟨fun s r k hk => ⟨fun he => ?_, fun he => ?_⟩, oneRegisterChecked fun _ => rfl, fetchOutOfRange .jne⟩
  · exact exec_of_takenJump s hk (.inr (.inr ⟨rfl, he⟩))
  · rw [exec_jne s hk, he, if_pos rfl, State.setPc]

/-- Settles O32: the state a taken jump leaves is Running with the register's byte as its pc, and the three clauses about the next
step are rules of every Running state. -/
theorem jumpTargetsUnchecked : Obligations.JumpTargetsUnchecked := by
  intro s i r k hrun hk hi
  have htarget : (s.reg k).toNat ≤ 255 := Nat.le_of_lt_succ (s.reg k).isLt
  have hrun' : (s.setPc (s.reg k).toNat).run = .running := hrun
  exact ⟨_, exec_of_takenJump s hk hi, hrun', rfl, htarget, opcodeFetchOutOfRange _ hrun',
    fun i' rest => stepRunsDecodedInstruction _ i' rest hrun', fun _ => step_of_unknown hrun'⟩

end Sys2Proof.Machine
end

/-! ## Exceptions: which error a step reports, what it leaves, and the numerals of the exit signals -/

section
namespace Sys2Proof

/-- R61: a row uses the first `operandCount` operand bytes and looks at no other. -/
theorem Row.instr_map_range (row : Row) (f : Nat → Byte) :
    row.instr ((List.range row.operandCount).map f) = row.instr [f 0, f 1] := by
  cases row <;> rfl

end Sys2Proof

namespace Sys2Proof.Machine
open Sys2Proof.Claims

/-! ### The order of the checks -/

/-- R80, R82: an instruction whose bytes are all in memory is fetched, with the operand bytes that stand after its opcode. -/
theorem State.fetch_of_fits {s : State} {row : Row} (hrow : decodeOpcode s.cfg (s.mem.read s.pc) = some row)
    (hfit : s.pc + row.operandCount < s.cfg.memSize) :
    s.fetch = .ok (row.instr [s.mem.read (s.pc + 1), s.mem.read (s.pc + 2)]) := by
  have hop : s.memRead s.pc = .ok (s.mem.read s.pc) := State.memRead_of_lt (by omega)
  have hbytes := State.readBytes_of_le (s := s) (n := row.operandCount) (a := s.pc + 1) (by omega)
  simp [State.fetch, hop, hrow, hbytes, Row.instr_map_range]

/-- Settles O43: a byte of no row in force decodes to no row. -/
theorem unknownOpcodeStops : Obligations.UnknownOpcodeStops :=
  fun _ _ hrun hread hother => step_of_unknown hrun hread (decodeOpcode_none.2 hother)

/-- Settles O45: the fetch errors in the order of their addresses; past them the step is the execution of the fetched instruction,
which reports its first bad operand or completes. -/
theorem errorPriority : Obligations.ErrorPriority := by
  obtain ⟨hopcode, hoperand, -, -⟩ := outOfRangeOnlyInFetch
  refine fun s hrun => ⟨hopcode s hrun, fun hpc hnone => step_of_unknown hrun (State.memRead_of_lt hpc) hnone,
    fun row hpc hrow => ⟨fun hcount hout => ?_, fun hcount hin hout => ?_, fun hfit => ?_⟩⟩
  · exact hoperand s row 1 hrun hpc hrow le_rfl hcount hout fun j hj => by omega
  · exact hoperand s row 2 hrun hpc hrow (by decide) hcount hout fun j hj => by omega
  · have hstep := step_of_fetch_ok hrun (State.fetch_of_fits hrow hfit)
    refine ⟨fun r hbad => hstep.trans (exec_of_firstBadReg s hbad), fun hgood => ⟨hstep, fun t ht hs => ?_⟩⟩
    rw [hstep, exec_of_inRange s ((Instr.firstBadReg_none_iff _).1 hgood)] at ht
    exact Host.Outcome.next.inj ht ▸ Instr.complete_errinfo_none _ hs

/-! ### What an error leaves -/

/-- Settles O46: a step that leaves an error context where none stood took that error, and taking it changes what R147 and R148
name. -/
theorem fatalErrorsArePrecise : Obligations.FatalErrorsArePrecise := by
  intro s t e _ hs hstep he
  obtain ⟨e', rfl⟩ := eq_raise_of_step_errinfo hs hstep (he ▸ Option.some_ne_none e)
  obtain rfl : e' = e := Option.some.inj he
  cases e' <;> rfl

/-! ### The exit signals -/

/-- The exit signal a numeral stands for (R145); every numeral but those of the four errors is read as the clean halt. -/
def ExitSignal.ofCode : Nat → ExitSignal
  | 1 => .unknownInstruction
  | 2 => .unsupportedOperation
  | 3 => .outOfRange
  | 4 => .invalidRegister
  | _ => .ok

theorem ExitSignal.ofCode_code : Function.LeftInverse ExitSignal.ofCode ExitSignal.code := fun e => by
  cases e <;> rfl

/-- R145: no fatal error has the numeral of a clean halt. -/
theorem ErrInfo.signal_code_ne_zero (e : ErrInfo) : e.signal.code ≠ 0 := by
  cases e <;> exact Nat.succ_ne_zero _

/-- Settles O47: the numerals by the table, and distinct because the signal can be read back from its numeral. -/
theorem exitSignalCodes : Obligations.ExitSignalCodes :=
  ⟨rfl, rfl, rfl, rfl, rfl, fun _ _ h => ExitSignal.ofCode_code.injective h, ErrInfo.signal_code_ne_zero⟩

end Sys2Proof.Machine
end
